-- ==== Sys2Proof/Word.lean ====
section
/-! DEFINITION. The fixed widths of the D5700 core (00_scope.md R5, R7): every quantity the spec treats as bits is
an unsigned bit vector of one of these widths. -/

namespace Sys2Proof

/-- `XLEN` = 8: a general register, the timer, a memory cell, an event payload (R5, R20, R24). -/
abbrev Byte := BitVec 8

/-- 16 bits: an instruction word, the program counter, the address register (R5, R23, R26, R80). -/
abbrev Word := BitVec 16

/-- 4 bits: an opcode or a register field of an instruction word, also a literal display coordinate (R81). -/
abbrev Nibble := BitVec 4

/-- 12 bits: the address field `aaa` of JUMP and SET_ADDRESS (R81). -/
abbrev Addr12 := BitVec 12

end Sys2Proof
end

