-- ==== Sys2Proof/Config.lean ====
section
/-! DEFINITION. What is fixed for the machine: the constants of 00_scope.md R5 and the TYPE of the open parameters of
R6. The values the parameters take are in Machine/Params.lean. No constant here is a free value: the open inputs of a
run (which agent steps next, what the keyboard answers) are plain data in State (notes/assumptions/1.md, 2.md). -/

/-! The widths of R5 are the types of Word.lean; `N_REG` = 8 and `DISP_W` = `DISP_H` = 8 are the types `RegIdx` and
`Coord` of Machine/State.lean. -/

namespace Sys2Proof.Config

/-- `ROM_SIZE` and `RAM_SIZE`: each data memory has 4096 one-byte cells, addresses 0 to 4095 (R5, R50, R52). -/
def memSize : Nat := 4096

/-- `MAX_PROGRAM` = 4096 − 512: the longest byte sequence `load` accepts (R5, R194). -/
def maxProgram : Nat := 3584

/-- `F_INSTR`, the nominal rate of the instruction clock in Hz (R5, R180). Timing only: no rule of the functional
model depends on it (R187, R206, R270). -/
def instrClockHz : Nat := 500

/-- `F_TIMER`, the nominal rate of the timer clock in Hz (R5, R180). Timing only, as `instrClockHz`. -/
def timerClockHz : Nat := 60

end Sys2Proof.Config

namespace Sys2Proof

/-- `TIMER_IMM_FIELD` (R6, D1): which bits of a SET_TIMER word hold the immediate. -/
inductive TimerImmField where
  /-- bits 11:4, the "middle byte" (the spec's default, R84) -/
  | middle
  /-- bits 7:0 (the alternative) -/
  | low
deriving DecidableEq, Repr

/-- `DRAW_COORD_MODE` (R6, D10): what the fields rY and rZ of DRAW are. -/
inductive DrawCoordMode where
  /-- the two fields are themselves the coordinates (the spec's default, R134) -/
  | literal
  /-- the contents of the registers they name are the coordinates (R136) -/
  | register
deriving DecidableEq, Repr

/-- The open parameters of R6 that change what the machine does. Left out: `OOR_POLICY`, whose alternative no rule
defines (R72, N10), `N_SUB` (unbounded here) and `RESET_REGS` (a claim quantifies over the launch state, R254). -/
structure Params where
  timerImmField    : TimerImmField
  /-- `HEX_ALPHA_BASE`: the code of the digit ten in CONVERT_TO_ASCII (R133). -/
  hexAlphaBase     : Byte
  drawCoordMode    : DrawCoordMode
  /-- `DRAW_EMITS_REFRESH`: DRAW emits Refresh after DrawPixel (R136). -/
  drawEmitsRefresh : Bool
  /-- `DRAW_STRICT_ASCII`: a DRAW value above 127 is fatal (R134). -/
  drawStrictAscii  : Bool
  /-- `LIFECYCLE_STRICT`: an invalid host command is answered with an error (R199). -/
  lifecycleStrict  : Bool
deriving DecidableEq, Repr

end Sys2Proof
end

