-- ==== Sys2Proof/Machine/Params.lean ====
section
/-! DEFINITION. The values the open parameters of 00_scope.md R6 take in this model: the spec's defaults
(92_eei_decisions.md D1, D8 to D12; notes/assumptions/3.md). -/

namespace Sys2Proof.Machine

/-- DESIGN CHOICE (notes/assumptions/3.md): every open parameter of R6 at the spec's default. -/
def params : Params where
  timerImmField    := .middle
  hexAlphaBase     := 0x41#8
  drawCoordMode    := .literal
  drawEmitsRefresh := true
  drawStrictAscii  := true
  lifecycleStrict  := true

end Sys2Proof.Machine
end

