-- ==== Sys2Proof/Syntax.lean ====
section
/-! DEFINITION. The instructions: one constructor per row of spec/opcode_table.json, in the table's order, holding the
fields its operand form uses and nothing else (30_encoding.md R82, R86, R90). -/

namespace Sys2Proof

/-- A decoded instruction (R90). Register fields are kept at their 4 encoded bits: an index of 8 to 15 decodes and is
checked only when the instruction executes (10_state.md R22, R85). -/
inductive Instr where
  /-- the exact word 0x0000 (R87, R100) -/
  | halt
  /-- form `RI` (R101) -/
  | store (rX : Nibble) (bb : Byte)
  /-- form `RRR` (R102) -/
  | add (rX rY rZ : Nibble)
  /-- form `RRR` (R103) -/
  | sub (rX rY rZ : Nibble)
  /-- form `R` (R110) -/
  | read (rX : Nibble)
  /-- form `R` (R111) -/
  | write (rX : Nibble)
  /-- form `A` (R121) -/
  | jump (aaa : Addr12)
  /-- form `R` (R130) -/
  | readKeyboard (rX : Nibble)
  /-- form `N` (R112) -/
  | switchMemory
  /-- form `RR` (R122) -/
  | skipIfEqual (rX rY : Nibble)
  /-- form `RR` (R123) -/
  | skipIfNotEqual (rX rY : Nibble)
  /-- form `A` (R114) -/
  | setAddress (aaa : Addr12)
  /-- form `T` (R131) -/
  | setTimer (tt : Byte)
  /-- form `R` (R132) -/
  | readTimer (rX : Nibble)
  /-- form `R` (R115) -/
  | convertToBase10 (rX : Nibble)
  /-- form `RR` (R133) -/
  | convertToAscii (rX rY : Nibble)
  /-- form `RRR`; rY and rZ are coordinates (R134) -/
  | draw (rX rY rZ : Nibble)
deriving DecidableEq, Repr

end Sys2Proof
end

