-- ==== Sys2Proof/WellFormed.lean ====
section
/-! DEFINITION. Two checks of an instruction as syntax. `wellFormed`: it has an encoding, which every instruction has but
STORE r0, 0x00 (30_encoding.md R87, R92). `executable`: the static conditions whose failure is a fault at execution,
not a decode error (R89), which an assembler should refuse (70_reset_and_hazards.md R266). -/

namespace Sys2Proof

/-- `STORE r0, 0x00` has no encoding: its word would be HALT (R87, R92). Everything else the decoder can produce has
one, register fields of 8 to 15 included (R85, R91). -/
def Instr.wellFormed : Instr → Bool
  | .store rX bb => !(rX == 0#4 && bb == 0#8)
  | .halt | .add _ _ _ | .sub _ _ _ | .read _ | .write _ | .jump _ | .readKeyboard _ | .switchMemory
  | .skipIfEqual _ _ | .skipIfNotEqual _ _ | .setAddress _ | .setTimer _ | .readTimer _ | .convertToBase10 _
  | .convertToAscii _ _ | .draw _ _ _ => true

/-- A field that names one of the eight registers (R22). -/
def Nibble.isReg (f : Nibble) : Bool := f.toNat < 8

/-- Every used register field is at most 7, a JUMP target is even, DRAW coordinates are at most 7: what R89 says makes a
word un-executable when it fails, whatever the registers hold. -/
def Instr.executable : Instr → Bool
  | .halt | .switchMemory | .setAddress _ | .setTimer _ => true
  | .store rX _ | .read rX | .write rX | .readKeyboard rX | .readTimer rX | .convertToBase10 rX => Nibble.isReg rX
  | .skipIfEqual rX rY | .skipIfNotEqual rX rY | .convertToAscii rX rY => Nibble.isReg rX && Nibble.isReg rY
  | .add rX rY rZ | .sub rX rY rZ => Nibble.isReg rX && Nibble.isReg rY && Nibble.isReg rZ
  | .jump aaa => aaa.toNat % 2 == 0
  | .draw rX rY rZ => Nibble.isReg rX && decide (rY.toNat < 8) && decide (rZ.toNat < 8)

end Sys2Proof
end

