-- ==== Sys2Proof/Decode.lean ====
section
/-! DEFINITION. The decoder and the encoder (30_encoding.md R80 to R94), both written from the opcode map of R86. The
map is a list of rows with the spec's own `match` and `mask`, HALT first; decoding takes the first row a word matches. -/

namespace Sys2Proof

/-! ### Bit fields (R7, R81) -/

/-- `opcode`, bits 15:12. -/
def fieldOpcode (w : Word) : Nibble := w.extractLsb' 12 4

/-- `rX`, bits 11:8. -/
def fieldRX (w : Word) : Nibble := w.extractLsb' 8 4

/-- `rY`, bits 7:4. -/
def fieldRY (w : Word) : Nibble := w.extractLsb' 4 4

/-- `rZ`, bits 3:0. -/
def fieldRZ (w : Word) : Nibble := w.extractLsb' 0 4

/-- `aaa`, bits 11:0. -/
def fieldAAA (w : Word) : Addr12 := w.extractLsb' 0 12

/-- `bb`, bits 7:0. -/
def fieldBB (w : Word) : Byte := w.extractLsb' 0 8

/-- `tt`: bits 11:4 by R84, or bits 7:0 with the alternative `TIMER_IMM_FIELD` (R6, D1). -/
def fieldTT (f : TimerImmField) (w : Word) : Byte :=
  match f with
  | .middle => w.extractLsb' 4 8
  | .low => w.extractLsb' 0 8

/-- Four nibbles as one word, the first in bits 15:12 (the picture of R81). -/
def packNibbles (op x y z : Nibble) : Word := op ++ x ++ y ++ z

/-- A top nibble over a 12-bit field (R81). -/
def packAddr (op : Nibble) (aaa : Addr12) : Word := op ++ aaa

/-- Two nibbles over a byte in bits 7:0 (R81). -/
def packLowByte (op x : Nibble) (b : Byte) : Word := op ++ x ++ b

/-- A top nibble, a byte in bits 11:4, a nibble in bits 3:0 (R81). -/
def packMiddleByte (op : Nibble) (b : Byte) (z : Nibble) : Word := op ++ b ++ z

/-! ### The opcode map (R86) -/

/-- One row of R86: a word `w` matches when `w AND mask = match`. -/
structure OpcodeRow where
  mnemonic : String
  matchBits : Word
  mask : Word
  build : Word → Instr

/-- Does the word match this row (R86)? -/
def OpcodeRow.matches (r : OpcodeRow) (w : Word) : Bool := (w &&& r.mask) == r.matchBits

/-- The rows of R86 for opcodes 0x0 to 0x7, after the HALT row, which is tested first (R86, R87, R94). -/
def opcodeRowsLow : List OpcodeRow :=
  [ { mnemonic := "HALT", matchBits := 0x0000#16, mask := 0xFFFF#16, build := fun _ => .halt },
    { mnemonic := "STORE", matchBits := 0x0000#16, mask := 0xF000#16,
      build := fun w => .store (fieldRX w) (fieldBB w) },
    { mnemonic := "ADD", matchBits := 0x1000#16, mask := 0xF000#16,
      build := fun w => .add (fieldRX w) (fieldRY w) (fieldRZ w) },
    { mnemonic := "SUB", matchBits := 0x2000#16, mask := 0xF000#16,
      build := fun w => .sub (fieldRX w) (fieldRY w) (fieldRZ w) },
    { mnemonic := "READ", matchBits := 0x3000#16, mask := 0xF000#16, build := fun w => .read (fieldRX w) },
    { mnemonic := "WRITE", matchBits := 0x4000#16, mask := 0xF000#16, build := fun w => .write (fieldRX w) },
    { mnemonic := "JUMP", matchBits := 0x5000#16, mask := 0xF000#16, build := fun w => .jump (fieldAAA w) },
    { mnemonic := "READ_KEYBOARD", matchBits := 0x6000#16, mask := 0xF000#16,
      build := fun w => .readKeyboard (fieldRX w) },
    { mnemonic := "SWITCH_MEMORY", matchBits := 0x7000#16, mask := 0xF000#16, build := fun _ => .switchMemory } ]

/-- The rows of R86 for opcodes 0x8 to 0xF. -/
def opcodeRowsHigh : List OpcodeRow :=
  [ { mnemonic := "SKIP_IF_EQUAL", matchBits := 0x8000#16, mask := 0xF000#16,
      build := fun w => .skipIfEqual (fieldRX w) (fieldRY w) },
    { mnemonic := "SKIP_IF_NOT_EQUAL", matchBits := 0x9000#16, mask := 0xF000#16,
      build := fun w => .skipIfNotEqual (fieldRX w) (fieldRY w) },
    { mnemonic := "SET_ADDRESS", matchBits := 0xA000#16, mask := 0xF000#16,
      build := fun w => .setAddress (fieldAAA w) },
    { mnemonic := "SET_TIMER", matchBits := 0xB000#16, mask := 0xF000#16,
      build := fun w => .setTimer (fieldTT Machine.params.timerImmField w) },
    { mnemonic := "READ_TIMER", matchBits := 0xC000#16, mask := 0xF000#16,
      build := fun w => .readTimer (fieldRX w) },
    { mnemonic := "CONVERT_TO_BASE10", matchBits := 0xD000#16, mask := 0xF000#16,
      build := fun w => .convertToBase10 (fieldRX w) },
    { mnemonic := "CONVERT_TO_ASCII", matchBits := 0xE000#16, mask := 0xF000#16,
      build := fun w => .convertToAscii (fieldRX w) (fieldRY w) },
    { mnemonic := "DRAW", matchBits := 0xF000#16, mask := 0xF000#16,
      build := fun w => .draw (fieldRX w) (fieldRY w) (fieldRZ w) } ]

/-- The opcode map of R86. -/
def opcodeRows : List OpcodeRow := opcodeRowsLow ++ opcodeRowsHigh

/-- The instruction a word stands for: the first row it matches (R85, R86). R89 says every word matches one; `none`
would be the invalid-opcode error the source names and nothing raises. -/
def decodeWord (w : Word) : Option Instr :=
  (opcodeRows.find? (fun r => r.matches w)).map (fun r => r.build w)

/-! ### Bytes (R59, R80) -/

/-- Why bytes do not decode. -/
inductive DecodeError where
  /-- fewer than the two bytes of one word; no fetch produces this -/
  | truncated
  /-- no row of R86 matches; R89 says there is no such word -/
  | invalidOpcode
deriving DecidableEq, Repr

/-- A word from its two ROM bytes, the byte at the lower address in bits 15:8 (R58, R59). -/
def wordOfBytes (hi lo : Byte) : Word := hi ++ lo

/-- The byte of a word that stands at the lower address (R59). -/
def highByte (w : Word) : Byte := w.extractLsb' 8 8

/-- The byte of a word that stands at the higher address (R59). -/
def lowByte (w : Word) : Byte := w.extractLsb' 0 8

/-- Decoding from a list of bytes: one instruction and the bytes after it. Total; rejects by name. -/
def decode : List Byte → Except DecodeError (Instr × List Byte)
  | hi :: lo :: rest =>
    match decodeWord (wordOfBytes hi lo) with
    | some i => .ok (i, rest)
    | none => .error .invalidOpcode
  | [_] => .error .truncated
  | [] => .error .truncated

/-! ### The encoder -/

/-- The canonical word of an instruction: every unused bit 0 (R86, R88, R92). For the one ill-formed instruction,
STORE r0, 0x00, the result is the HALT word. -/
def encode : Instr → Word
  | .halt => 0x0000#16
  | .store rX bb => packLowByte 0x0#4 rX bb
  | .add rX rY rZ => packNibbles 0x1#4 rX rY rZ
  | .sub rX rY rZ => packNibbles 0x2#4 rX rY rZ
  | .read rX => packLowByte 0x3#4 rX 0x00#8
  | .write rX => packLowByte 0x4#4 rX 0x00#8
  | .jump aaa => packAddr 0x5#4 aaa
  | .readKeyboard rX => packLowByte 0x6#4 rX 0x00#8
  | .switchMemory => packAddr 0x7#4 0x000#12
  | .skipIfEqual rX rY => packNibbles 0x8#4 rX rY 0x0#4
  | .skipIfNotEqual rX rY => packNibbles 0x9#4 rX rY 0x0#4
  | .setAddress aaa => packAddr 0xA#4 aaa
  | .setTimer tt =>
    match Machine.params.timerImmField with
    | .middle => packMiddleByte 0xB#4 tt 0x0#4
    | .low => packLowByte 0xB#4 0x0#4 tt
  | .readTimer rX => packLowByte 0xC#4 rX 0x00#8
  | .convertToBase10 rX => packLowByte 0xD#4 rX 0x00#8
  | .convertToAscii rX rY => packNibbles 0xE#4 rX rY 0x0#4
  | .draw rX rY rZ => packNibbles 0xF#4 rX rY rZ

/-- The two ROM bytes of an instruction, lower address first (R59). -/
def encodeBytes (i : Instr) : List Byte := [highByte (encode i), lowByte (encode i)]

/-- The bits of its word an instruction uses; the others are ignored (the table of R88). -/
def usedBits : Instr → Word
  | .halt | .store _ _ | .add _ _ _ | .sub _ _ _ | .draw _ _ _ | .jump _ | .setAddress _ => 0xFFFF#16
  | .read _ | .write _ | .readKeyboard _ | .readTimer _ | .convertToBase10 _ => 0xFF00#16
  | .skipIfEqual _ _ | .skipIfNotEqual _ _ | .convertToAscii _ _ => 0xFFF0#16
  | .switchMemory => 0xF000#16
  | .setTimer _ =>
    match Machine.params.timerImmField with
    | .middle => 0xFFF0#16
    | .low => 0xF0FF#16

/-! ### The host's view of the table -/

/-- The instruction word the opcode table's bits stand for: every row of the table is one 16-bit word (R80, R94), and
bits at or above `nbits` are 0. -/
def tableWord (nbits w : Nat) : Word := BitVec.ofNat 16 (w % 2 ^ nbits)

/-- The decoder applied to a table word laid out as ROM holds it, high byte first (R59). -/
def decodeTableWord (nbits w : Nat) : Option Instr :=
  match decode [highByte (tableWord nbits w), lowByte (tableWord nbits w)] with
  | .ok (i, _) => some i
  | .error _ => none

end Sys2Proof
end

