-- ==== Sys2Proof/Machine/State.lean ====
section
/-! DEFINITION. The state of the machine as plain data (10_state.md R20 to R43), the events of the bus (51_event_bus.md
R161), the host's commands (52_clocks_lifecycle.md R193), the fatal errors (60_exceptions.md R211) and the state right
after power-on reset (R40, R250). The last five fields of State are the model's own: the inputs of the run that are still
to come, and the core's outputs (notes/assumptions/1.md, 4.md). -/

namespace Sys2Proof.Machine

/-- One of the eight general registers `x[0]` to `x[7]` (R20). -/
abbrev RegIdx := Fin 8

/-- A display coordinate, 0 to 7 (R5, R232). -/
abbrev Coord := Fin 8

/-- A 4096-byte array, ROM or RAM, as a list of (address, byte): addresses strictly rising, no byte equal to 0x00, which
is what an unlisted address reads as (Memory.lean; notes/assumptions/5.md). -/
abbrev Memory := List Host.Cell

/-- `LS`, the lifecycle state (R33, R190). -/
inductive Lifecycle where
  /-- no program has been loaded -/
  | uninitialized
  /-- a program is loaded and the state is reset; nothing runs yet -/
  | ready
  /-- both clocks tick -/
  | running
  /-- both clocks are suppressed; all state is kept -/
  | paused
  /-- the run is over; `cause` says why -/
  | halted
deriving DecidableEq, Repr

/-- A fatal error with its information word, in the order of the codes 1 to 8 of R211. -/
inductive FatalError where
  /-- code 1: JUMP to an odd `aaa` (R121) -/
  | oddJumpTarget (aaa : Addr12)
  /-- code 2: a data write while ROM is selected (R55) -/
  | romWrite (addr : Word)
  /-- code 3: CONVERT_TO_ASCII of a value above 0xF (R133) -/
  | asciiRange (v : Byte)
  /-- code 4: a fetch or data address of 4096 or more (R53) -/
  | addressOutOfRange (addr : Word)
  /-- code 5: DRAW at a coordinate above 7 (R134) -/
  | displayRange (x y : Byte)
  /-- code 6: DRAW of a value above 127 (R134) -/
  | drawValueRange (v : Byte)
  /-- code 7: a used register field above 7 (R22) -/
  | registerIndexRange (field : Nibble)
  /-- code 8: never raised, every word decodes (R89) -/
  | invalidOpcode
deriving DecidableEq, Repr

/-- `cause`: why the run ended (R34, R211). -/
inductive Cause where
  /-- code 0: the run has not ended -/
  | none
  /-- code 16: the word 0x0000 was executed (R100) -/
  | cleanHalt
  /-- code 17: the host's `shutdown` (R198) -/
  | shutdown
  /-- codes 1 to 8 -/
  | fatal (f : FatalError)
deriving DecidableEq, Repr

/-- The six kinds of event (R161). The payload of `halt` is the halt address `pc0` (D23). -/
inductive Event where
  | halt (pc0 : Word)
  | switchMemory
  | timerSet (value : Byte)
  | timerTick (value : Byte)
  | drawPixel (x y : Coord) (value : Byte)
  | refresh
deriving DecidableEq, Repr

/-- A receiver on the event bus (R36, R164): the three built-in handlers, and external subscribers, whose identifiers
are abstract (D24). -/
inductive Receiver where
  | cpu
  | lifecycle
  | display
  | external (id : Nat)
deriving DecidableEq, Repr

/-- One entry of the trace (R175): an event and the external subscribers that received it, which are those registered
when its publication started (R162, R166). -/
structure Publication where
  event : Event
  receivers : List Nat
deriving DecidableEq, Repr

/-- A call of the core on the display sink (R172, R232). -/
inductive SinkCall where
  | drawPixel (x y : Coord) (value : Byte)
  | refresh
deriving DecidableEq, Repr

/-- The host's five commands (R193). -/
inductive Command where
  | load (bytes : List Byte)
  | start
  | pause
  | resume
  | shutdown
deriving DecidableEq, Repr

/-- What the caller of a command is told (R199, R219, R235). -/
inductive CommandReply where
  | ok
  /-- the command is not in the whitelist of R192 from this state -/
  | lifecycleViolation (current : Lifecycle) (command : Command)
  /-- `load` of more than 3584 bytes -/
  | invalidRom
deriving DecidableEq, Repr

/-- One input at the core's interfaces (R235): what can happen to the core from outside. Each is one atomic step (R186).
-/
inductive Stimulus where
  /-- a tick of the 500 Hz clock (R180) -/
  | instrTick
  /-- a tick of the 60 Hz clock (R180) -/
  | timerTick
  /-- a host command (R193) -/
  | command (c : Command)
  /-- the keyboard source answers `readOneHexByte()` with one byte (R231) -/
  | keyReply (k : Byte)
  /-- a subscribe request (R163) -/
  | subscribe (r : Receiver)
  /-- an unsubscribe request (R163) -/
  | unsubscribe (r : Receiver)
deriving DecidableEq, Repr

structure State where
  /-- `x[0..7]` (R20) -/
  x : Vector Byte 8
  /-- `A`, the address register (R23) -/
  a : Word
  /-- `T`, the timer register (R24) -/
  t : Byte
  /-- `M`, the bank flag: false selects RAM, true selects ROM (R25) -/
  m : Bool
  /-- `pc` (R26) -/
  pc : Word
  /-- `ROM[0..4095]` (R31) -/
  rom : Memory
  /-- `RAM[0..4095]` (R32) -/
  ram : Memory
  /-- `LS` (R33) -/
  ls : Lifecycle
  /-- `cause` (R34) -/
  cause : Cause
  /-- `haltPc` (R35) -/
  haltPc : Word
  /-- `subs` less the three built-in receivers, which are always members (R36, R164): identifiers, strictly rising -/
  extSubs : List Nat
  /-- `kbdWait` (R37), with the destination of the READ_KEYBOARD that waits -/
  kbdWait : Option RegIdx
  /-- `stopReq` (R38) -/
  stopReq : Bool
  /-- the inputs still to come, the next one first (the schedule and the keyboard oracle of R13) -/
  schedule : List Stimulus
  /-- output: the events of the current run in publication order (R41, R175) -/
  trace : List Publication
  /-- output: the calls made on the display sink in the current run (R175, R232) -/
  sinkCalls : List SinkCall
  /-- output: what the last host command was answered (R235) -/
  reply : Option CommandReply
deriving DecidableEq, Repr

/-- Why the machine stops with no next state: never. Every fatal error of R211 is a NEXT state, the entry into `Halted`
that R212 describes, and no other behaviour of the spec is without an effect; so this type has no constructor, and an
answer `.fault` cannot be written (notes/assumptions/6.md). Safe: nothing is claimed of a stop. -/
inductive Fault
deriving DecidableEq, Repr

/-- Why an instruction has no meaning. -/
inductive Refusal where
  /-- raised by the dispatcher for an instruction that has no meaning yet; no arm raises it. Safe: the machine stops. -/
  | notModelled (mnemonic : String)
deriving DecidableEq, Repr

/-- The state right after power-on reset (R40, R250). `rom` is DESIGN CHOICE (notes/assumptions/7.md): the spec leaves
its contents open and never reads them before a `load`. -/
def State.reset : State where
  x := Vector.replicate 8 0#8
  a := 0#16
  t := 0#8
  m := false
  pc := 0#16
  rom := []
  ram := []
  ls := .uninitialized
  cause := .none
  haltPc := 0#16
  extSubs := []
  kbdWait := none
  stopReq := false
  schedule := []
  trace := []
  sinkCalls := []
  reply := none

end Sys2Proof.Machine
end

