-- ==== Sys2Proof/Machine/Bus.lean ====
section
/-! DEFINITION. The event bus (51_event_bus.md): the built-in handlers, and publication, which is synchronous and complete
within the step that publishes (R165). -/

namespace Sys2Proof.Machine

/-- The CPU's own handler (R168, R169): the only place where SWITCH_MEMORY flips `M` and SET_TIMER writes `T` (R113). -/
def cpuHandler (e : Event) (s : State) : State :=
  match e with
  | .switchMemory => { s with m := !s.m }
  | .timerSet v => { s with t := v }
  | .halt _ | .timerTick _ | .drawPixel _ _ _ | .refresh => s

/-- The lifecycle controller's handler (R170): both clocks stop. -/
def lifecycleHandler (e : Event) (s : State) : State :=
  match e with
  | .halt _ => { s with ls := .halted, cause := .cleanHalt, stopReq := true }
  | .switchMemory | .timerSet _ | .timerTick _ | .drawPixel _ _ _ | .refresh => s

/-- The calls on the display sink an event stands for (R172, R175). -/
def sinkCallsOf : Event → List SinkCall
  | .drawPixel x y v => [.drawPixel x y v]
  | .refresh => [.refresh]
  | .halt _ | .switchMemory | .timerSet _ | .timerTick _ => []

/-- The display handler (R172): it holds no state of its own and calls the sink. -/
def displayHandler (e : Event) (s : State) : State :=
  { s with sinkCalls := s.sinkCalls ++ sinkCallsOf e }

/-- What one receiver does with one event. Every receiver is offered every kind (R176); an external subscriber changes no
core state (R171). -/
def receive (e : Event) (s : State) (r : Receiver) : State :=
  match r with
  | .cpu => cpuHandler e s
  | .lifecycle => lifecycleHandler e s
  | .display => displayHandler e s
  | .external _ => s

/-- `subs` (R36): the three built-in receivers, which cannot be removed (R164), and the external ones. -/
def State.subs (s : State) : List Receiver :=
  [.cpu, .lifecycle, .display] ++ s.extSubs.map .external

/-- `Publish(e)`: the event joins the trace with its receivers, and is delivered to the members `subs` had when the
publication started (R165, R166). -/
def publish (e : Event) (s : State) : State :=
  s.subs.foldl (receive e) { s with trace := s.trace ++ [⟨e, s.extSubs⟩] }

/-- The events of one instruction, in order (R149, R167). -/
def publishAll (es : List Event) (s : State) : State :=
  es.foldl (fun t e => publish e t) s

/-- Add an external subscriber; a member already present is not added twice (R163, D24). -/
def insertSubscriber (n : Nat) : List Nat → List Nat
  | [] => [n]
  | k :: rest => if n < k then n :: k :: rest else if n = k then k :: rest else k :: insertSubscriber n rest

/-- A subscribe request (R163). A built-in receiver is a member already. -/
def subscribe (r : Receiver) (s : State) : State :=
  match r with
  | .external n => { s with extSubs := insertSubscriber n s.extSubs }
  | .cpu | .lifecycle | .display => s

/-- An unsubscribe request (R163). A built-in receiver cannot be removed (R164); a non-member changes nothing. -/
def unsubscribe (r : Receiver) (s : State) : State :=
  match r with
  | .external n => { s with extSubs := s.extSubs.filter (fun k => k != n) }
  | .cpu | .lifecycle | .display => s

end Sys2Proof.Machine
end

