-- ==== Sys2Proof/Machine/Memory.lean ====
section
/-! DEFINITION. The two byte arrays as data (20_memory.md R50, R52): reading and writing one byte, the canonical form, and
the image a `load` installs. Range and bank checks are Ops.lean's. -/

namespace Sys2Proof.Machine

/-- What an address reads as that is not listed. RAM is "initialized to zero" (R32) and a `load` fills the rest of ROM
with 0x00 (R252); for ROM before the first `load` it is DESIGN CHOICE (notes/assumptions/5.md, 7.md). -/
def Memory.fill : Byte := 0x00#8

/-- The byte at address `a`. -/
def Memory.read : Memory → Nat → Byte
  | [], _ => Memory.fill
  | (b, v) :: rest, a => if a = b then v else Memory.read rest a

/-- Put one cell before a list whose addresses are all higher, keeping the canonical form. -/
def Memory.putFirst (a : Nat) (v : Byte) (m : Memory) : Memory :=
  if v = Memory.fill then m else (a, v) :: m

/-- Write the byte `v` at address `a`, keeping the canonical form. -/
def Memory.write : Memory → Nat → Byte → Memory
  | [], a, v => Memory.putFirst a v []
  | (b, w) :: rest, a, v =>
    if a < b then Memory.putFirst a v ((b, w) :: rest)
    else if a = b then Memory.putFirst a v rest
    else (b, w) :: Memory.write rest a v

/-- The bytes of a list from address `base` up (R252), in canonical form. -/
def Memory.ofBytes : Nat → List Byte → Memory
  | _, [] => []
  | base, v :: rest => Memory.putFirst base v (Memory.ofBytes (base + 1) rest)

/-- Canonical form from an address up: addresses from `lo` on, strictly rising, below 4096, no cell equal to the fill. -/
def Memory.wfFrom : Nat → Memory → Bool
  | _, [] => true
  | lo, (a, v) :: rest =>
    decide (lo ≤ a) && decide (a < Config.memSize) && decide (v ≠ Memory.fill) && Memory.wfFrom (a + 1) rest

/-- The canonical form: equal memories are equal lists. -/
def Memory.wf (m : Memory) : Bool := Memory.wfFrom 0 m

end Sys2Proof.Machine
end

