-- ==== Sys2Proof/Machine/Ops.lean ====
section
/-! DEFINITION. The operations every instruction is built from: register and data-memory access with their checks
(20_memory.md R53 to R58), taking a fatal error (60_exceptions.md R212) and arming the machine again after one
(70_reset_and_hazards.md R252), applying the PC action (50_execution_cycle.md R147), and `finish`, which ends an
instruction: it takes the fault or commits the effects, applies the PC action and publishes the events (R146 to R150). -/

namespace Sys2Proof.Machine

/-- What a step answers. -/
abbrev Answer := Host.Outcome State Fault Refusal

/-! ### Registers -/

/-- `x[i]` (R20). -/
def State.reg (s : State) (i : RegIdx) : Byte := s.x[i]

/-- `x[i] <- v` (R20). -/
def State.setReg (s : State) (i : RegIdx) (v : Byte) : State := { s with x := s.x.set i v }

/-- The address an executing instruction was fetched from: `pc` was advanced by 2 before dispatch (R26, R143;
notes/assumptions/8.md). -/
def State.pc0 (s : State) : Word := s.pc - 2#16

/-- Step 2 of the cycle: `pc <- (pc0 + 2) mod 65536` (R143). -/
def State.advance (s : State) : State := { s with pc := s.pc + 2#16 }

/-! ### Taking a fatal error, and the way back -/

/-- The numeric code of a fatal error (R211). -/
def FatalError.code : FatalError → Nat
  | .oddJumpTarget _ => 1
  | .romWrite _ => 2
  | .asciiRange _ => 3
  | .addressOutOfRange _ => 4
  | .displayRange _ _ => 5
  | .drawValueRange _ => 6
  | .registerIndexRange _ => 7
  | .invalidOpcode => 8

/-- The numeric code of `cause` (R34, R211). -/
def Cause.code : Cause → Nat
  | .none => 0
  | .fatal f => f.code
  | .cleanHalt => 16
  | .shutdown => 17

/-- `on raise F(info)`: the whole "trap entry" of R212. Applied to the state before the instruction's effects, with `pc`
as it stands (`pc0` after a fetch, `pc0 + 2` in execute); no event is published; both clocks stop (R38, R200). -/
def takeFatal (f : FatalError) (s : State) : State :=
  { s with ls := .halted, cause := .fatal f, stopReq := true }

/-- An accepted `load` (R252): the only way out of `Halted` (R222) and out of `Uninitialized`. It resets everything but
the subscriber set. The trace starts anew with it, as it is the trace of one run (R175, R222; notes/assumptions/4.md). -/
def loadImage (bytes : List Byte) (s : State) : State :=
  { s with
    rom := Memory.ofBytes 0 bytes
    ram := []
    x := Vector.replicate 8 0#8
    a := 0#16
    t := 0#8
    pc := 0#16
    m := false
    cause := .none
    haltPc := 0#16
    kbdWait := none
    stopReq := false
    ls := .ready
    trace := []
    sinkCalls := [] }

/-! ### Memory -/

/-- A test that must hold, or the instruction raises `f`. -/
def require (p : Prop) [Decidable p] (f : FatalError) : Except FatalError Unit :=
  if p then .ok () else .error f

/-- `MemRead(addr, 1)` (R56): range check, then the bank `M` selects (R51). -/
def memRead (s : State) (addr : Word) : Except FatalError Byte := do
  require (addr.toNat < Config.memSize) (.addressOutOfRange addr)
  return if s.m then s.rom.read addr.toNat else s.ram.read addr.toNat

/-- The checks of `MemWrite(addr, 1, v)` (R57): the bank first, then the range (R55). -/
def checkWrite (s : State) (addr : Word) : Except FatalError Unit := do
  require (s.m = false) (.romWrite addr)
  require (addr.toNat < Config.memSize) (.addressOutOfRange addr)

/-- `RAM[addr] <- v`, after its checks. -/
def State.setRam (s : State) (addr : Word) (v : Byte) : State := { s with ram := s.ram.write addr.toNat v }

/-- `MemWrite(addr, 1, v)` (R57). -/
def memWrite (s : State) (addr : Word) (v : Byte) : Except FatalError State := do
  checkWrite s addr
  return s.setRam addr v

/-- `Fetch(a)` (R58): two bytes of ROM, whatever `M` is, the first in bits 15:8 (R59). -/
def fetch (s : State) (addr : Word) : Except FatalError Word := do
  require (addr.toNat < Config.memSize) (.addressOutOfRange addr)
  require (addr.toNat + 1 < Config.memSize) (.addressOutOfRange (addr + 1#16))
  return wordOfBytes (s.rom.read addr.toNat) (s.rom.read (addr.toNat + 1))

/-! ### Ending an instruction -/

/-- The PC action of an instruction (R105, R147). -/
inductive PcAction where
  | noChange
  | increment (n : Word)
  | setPc (aaa : Addr12)
deriving DecidableEq, Repr

/-- What an instruction that raises nothing returns (R146): the state with its register and memory writes, a PC action,
and its events in order. -/
structure Effects where
  state : State
  action : PcAction := .noChange
  events : List Event := []
deriving DecidableEq, Repr

/-- Step 4c (R147), applied to the already advanced `pc`. The parity check of JUMP is made here (R28, R121). -/
def applyAction (p : PcAction) (s : State) : Except FatalError State :=
  match p with
  | .noChange => .ok s
  | .increment n => .ok { s with pc := s.pc + n }
  | .setPc aaa => do
    require (aaa.toNat % 2 = 0) (.oddJumpTarget aaa)
    return { s with pc := aaa.setWidth 16 }

/-- Steps 4b to 4d for an instruction that started in `s` (R146 to R150): a fault discards every effect and event of the
instruction (R148, R212); otherwise the effects are committed, the PC action applied and the events published. -/
def finish (s : State) (r : Except FatalError Effects) : Answer :=
  match r with
  | .error f => .next (takeFatal f s)
  | .ok e =>
    match applyAction e.action e.state with
    | .error f => .next (takeFatal f s)
    | .ok s' => .next (publishAll e.events s')

end Sys2Proof.Machine
end

