-- ==== Sys2Proof/Machine/LifecycleControl.lean ====
section
/-! DEFINITION. The lifecycle state machine and the host's commands (52_clocks_lifecycle.md R190 to R205). -/

namespace Sys2Proof.Machine

/-- The state each command asks for (R192). -/
def Command.target : Command → Lifecycle
  | .load _ => .ready
  | .start => .running
  | .pause => .paused
  | .resume => .running
  | .shutdown => .halted

/-- The states each command may be given in (R194 to R198): `start` and `resume` ask for the same state from different
ones. -/
def Command.legalFrom : Command → Lifecycle → Bool
  | .load _, l => l == .uninitialized || l == .halted
  | .start, l => l == .ready
  | .pause, l => l == .running
  | .resume, l => l == .paused
  | .shutdown, l => l == .ready || l == .running || l == .paused

/-- The effect of a command that is legal (R194 to R198). `load` of too long a sequence changes nothing (R219). -/
def acceptCommand (c : Command) (s : State) : State :=
  match c with
  | .load bytes =>
    if bytes.length ≤ Config.maxProgram then { loadImage bytes s with reply := some .ok }
    else { s with reply := some .invalidRom }
  | .start | .pause | .resume => { s with ls := c.target, reply := some .ok }
  | .shutdown => { s with ls := .halted, cause := .shutdown, stopReq := true, reply := some .ok }

/-- The answer to a command that is not legal: `strict` is `LIFECYCLE_STRICT` (R199). -/
def violationReply (strict : Bool) (c : Command) (s : State) : Option CommandReply :=
  if strict then some (.lifecycleViolation s.ls c) else none

/-- A host command (R193, R205). A lifecycle violation changes nothing and tells the caller (R199, R217). -/
def hostCommand (c : Command) (s : State) : State :=
  if c.legalFrom s.ls then acceptCommand c s else { s with reply := violationReply params.lifecycleStrict c s }

/-- `ready-for-load`, a status output (R233). -/
def State.readyForLoad (s : State) : Bool := s.ls == .uninitialized || s.ls == .halted

/-- What the host may read (R234): `LS` always, `cause` and `haltPc` in `Halted`. -/
def State.status (s : State) : Lifecycle × Bool × Option (Cause × Word) :=
  (s.ls, s.readyForLoad, if s.ls = .halted then some (s.cause, s.haltPc) else none)

end Sys2Proof.Machine
end

