-- ==== Sys2Proof/Machine/Flags.lean ====
section
/-! DEFINITION. The hardware has no flags (10_state.md R30): no instruction writes one and the conditions of the skips are
computed and dropped. This file holds what other machines' flag files hold beside flags: the arithmetic results
(40_store_arith.md R104), the digits (41_memory_ops.md R115), the ASCII code (43_io_timer_convert.md R133) and the
condition of the skips (42_control.md R122, R123). -/

namespace Sys2Proof.Machine

/-- `(a + b) mod 256`, no carry (R102). -/
def addWrap (a b : Byte) : Byte := a + b

/-- `max(0, a − b)`, no borrow (R103). -/
def subClamp (a b : Byte) : Byte := if b.toNat ≤ a.toNat then a - b else 0#8

/-- The hundreds digit `v div 100` (R115). -/
def hundreds (v : Byte) : Byte := BitVec.ofNat 8 (v.toNat / 100)

/-- The tens digit `(v div 10) mod 10` (R115). -/
def tens (v : Byte) : Byte := BitVec.ofNat 8 (v.toNat / 10 % 10)

/-- The ones digit `v mod 10` (R115). -/
def ones (v : Byte) : Byte := BitVec.ofNat 8 (v.toNat % 10)

/-- The ASCII code of a hexadecimal digit; `base` is `HEX_ALPHA_BASE` (R133, R135). -/
def asciiDigit (base v : Byte) : Byte := if v.toNat ≤ 9 then 0x30#8 + v else base + (v - 10#8)

/-- The comparison of the skips: equality of all 8 bits (R122, R123). -/
def equalBytes (a b : Byte) : Bool := a == b

end Sys2Proof.Machine
end

