-- ==== Sys2Proof/Machine/Operands.lean ====
section
/-! DEFINITION. The operand forms of 30_encoding.md R82 and R83: register fields with their check (10_state.md R22), the
data address of 41_memory_ops.md R116, immediates, and the coordinates of DRAW (43_io_timer_convert.md R134, R136). -/

namespace Sys2Proof.Machine

/-- The check of a used register field: above 7 raises `RegisterIndexRange` (R22). -/
def regIdx (f : Nibble) : Except FatalError RegIdx :=
  if h : f.toNat < 8 then .ok ⟨f.toNat, h⟩ else .error (.registerIndexRange f)

/-- `reg(f)`: the contents of the register a field names, after the check (R8, R22). -/
def reg (s : State) (f : Nibble) : Except FatalError Byte := do
  let i ← regIdx f
  return s.reg i

/-- The effective address `(A + k) mod 65536` (R53, R116). -/
def dataAddr (s : State) (k : Word) : Word := s.a + k

/-- A 12-bit address as it is written to a 16-bit register: `zext_16(aaa)` (R83). -/
def zextAddr (aaa : Addr12) : Word := aaa.setWidth 16

/-- The two coordinates of DRAW as numbers (R134): the fields themselves, or with `DRAW_COORD_MODE` = `register` the
contents of the registers they name (R136). -/
def drawCoords (mode : DrawCoordMode) (s : State) (rY rZ : Nibble) : Except FatalError (Byte × Byte) :=
  match mode with
  | .literal => .ok (rY.setWidth 8, rZ.setWidth 8)
  | .register => do
    let px ← reg s rY
    let py ← reg s rZ
    return (px, py)

/-- A pair of numbers as display coordinates; one above 7 raises `DisplayRange` (R134). -/
def toCoords (p : Byte × Byte) : Except FatalError (Coord × Coord) :=
  if h : p.1.toNat < 8 ∧ p.2.toNat < 8 then .ok (⟨p.1.toNat, h.1⟩, ⟨p.2.toNat, h.2⟩)
  else .error (.displayRange p.1 p.2)

end Sys2Proof.Machine
end

