-- ==== Sys2Proof/Machine/Control.lean ====
section
/-! DEFINITION. JUMP, SKIP_IF_EQUAL, SKIP_IF_NOT_EQUAL (42_control.md). -/

namespace Sys2Proof.Machine

/-- JUMP aaa (R121): the parity check is made in the application of `SetPc`, which R121 allows. -/
def execJump (aaa : Addr12) (s : State) : Answer :=
  finish s (.ok { state := s, action := .setPc aaa })

/-- The PC action of a skip whose condition is `c` (R122, R123, R147). -/
def skipAction (c : Bool) : PcAction := if c then .increment 2#16 else .noChange

/-- SKIP_IF_EQUAL rX, rY (R122). -/
def execSkipIfEqual (rX rY : Nibble) (s : State) : Answer :=
  finish s do
    let a ← reg s rX
    let b ← reg s rY
    return { state := s, action := skipAction (equalBytes a b) }

/-- SKIP_IF_NOT_EQUAL rX, rY (R123). -/
def execSkipIfNotEqual (rX rY : Nibble) (s : State) : Answer :=
  finish s do
    let a ← reg s rX
    let b ← reg s rY
    return { state := s, action := skipAction (!equalBytes a b) }

end Sys2Proof.Machine
end

