-- ==== Sys2Proof/Machine/DataMemory.lean ====
section
/-! DEFINITION. READ, WRITE, SWITCH_MEMORY, SET_ADDRESS, CONVERT_TO_BASE10 (41_memory_ops.md). -/

namespace Sys2Proof.Machine

/-- READ rX (R110). -/
def execRead (rX : Nibble) (s : State) : Answer :=
  finish s do
    let d ← regIdx rX
    let v ← memRead s (dataAddr s 0#16)
    return { state := s.setReg d v }

/-- WRITE rX (R111). -/
def execWrite (rX : Nibble) (s : State) : Answer :=
  finish s do
    let v ← reg s rX
    let s' ← memWrite s (dataAddr s 0#16) v
    return { state := s' }

/-- SWITCH_MEMORY (R112): the flip is the CPU handler's, on delivery (R113). -/
def execSwitchMemory (s : State) : Answer :=
  finish s (.ok { state := s, events := [.switchMemory] })

/-- SET_ADDRESS aaa (R114). -/
def execSetAddress (aaa : Addr12) (s : State) : Answer :=
  finish s (.ok { state := { s with a := zextAddr aaa } })

/-- CONVERT_TO_BASE10 rX (R115): all checks first, then the three writes. -/
def execConvertToBase10 (rX : Nibble) (s : State) : Answer :=
  finish s do
    let v ← reg s rX
    checkWrite s (dataAddr s 0#16)
    checkWrite s (dataAddr s 1#16)
    checkWrite s (dataAddr s 2#16)
    return { state := ((s.setRam (dataAddr s 0#16) (hundreds v)).setRam (dataAddr s 1#16) (tens v)).setRam
                        (dataAddr s 2#16) (ones v) }

end Sys2Proof.Machine
end

