-- ==== Sys2Proof/Machine/Io.lean ====
section
/-! DEFINITION. READ_KEYBOARD, SET_TIMER, READ_TIMER, CONVERT_TO_ASCII, DRAW (43_io_timer_convert.md). -/

namespace Sys2Proof.Machine

/-- `KbdRead()` for the destination `d` (R130, R231): when the keyboard source answers at once, which is when its reply is
the next input of the run, the byte is written; otherwise the instruction waits (R37, and `KbdBegin` of R201)
(notes/assumptions/2.md). -/
def readKey (d : RegIdx) (s : State) : State :=
  match s.schedule with
  | .keyReply k :: rest => { s.setReg d k with schedule := rest }
  | .instrTick :: _ | .timerTick :: _ | .command _ :: _ | .subscribe _ :: _ | .unsubscribe _ :: _ | [] =>
    { s with kbdWait := some d }

/-- READ_KEYBOARD rX (R130): the index is checked before the keyboard is asked. -/
def execReadKeyboard (rX : Nibble) (s : State) : Answer :=
  finish s do
    let d ← regIdx rX
    return { state := readKey d s }

/-- SET_TIMER tt (R131): the write of `T` is the CPU handler's, on delivery. -/
def execSetTimer (tt : Byte) (s : State) : Answer :=
  finish s (.ok { state := s, events := [.timerSet tt] })

/-- READ_TIMER rX (R132). -/
def execReadTimer (rX : Nibble) (s : State) : Answer :=
  finish s do
    let d ← regIdx rX
    return { state := s.setReg d s.t }

/-- CONVERT_TO_ASCII rX -> rY (R133). -/
def execConvertToAscii (rX rY : Nibble) (s : State) : Answer :=
  finish s do
    let v ← reg s rX
    let d ← regIdx rY
    require (v.toNat ≤ 15) (.asciiRange v)
    return { state := s.setReg d (asciiDigit params.hexAlphaBase v) }

/-- The events of DRAW in order (R134, R136). -/
def drawEvents (p : Params) (x y : Coord) (v : Byte) : List Event :=
  if p.drawEmitsRefresh then [.drawPixel x y v, .refresh] else [.drawPixel x y v]

/-- DRAW under given parameters (R134, R136). The tests come in the order of R214: register fields, value, coordinates
(notes/assumptions/3.md). -/
def drawEffects (p : Params) (rX rY rZ : Nibble) (s : State) : Except FatalError Effects := do
  let v ← reg s rX
  let xy ← drawCoords p.drawCoordMode s rY rZ
  require (p.drawStrictAscii = false ∨ v.toNat ≤ 127) (.drawValueRange v)
  let c ← toCoords xy
  return { state := s, events := drawEvents p c.1 c.2 v }

/-- DRAW rX, rY, rZ (R134). -/
def execDraw (rX rY rZ : Nibble) (s : State) : Answer :=
  finish s (drawEffects params rX rY rZ s)

end Sys2Proof.Machine
end

