-- ==== Sys2Proof/Machine/StoreArith.lean ====
section
/-! DEFINITION. HALT, STORE, ADD, SUB (40_store_arith.md). Every meaning starts in the state in which `pc` has already been
advanced (00_scope.md R9). -/

namespace Sys2Proof.Machine

/-- HALT (R100): the state changes of the halt ride on the delivery of the event (R144, R170). -/
def execHalt (s : State) : Answer :=
  finish s (.ok { state := { s with haltPc := s.pc0 }, events := [.halt s.pc0] })

/-- STORE rX, bb (R101). -/
def execStore (rX : Nibble) (bb : Byte) (s : State) : Answer :=
  finish s do
    let d ← regIdx rX
    return { state := s.setReg d bb }

/-- ADD rX, rY -> rZ (R102). -/
def execAdd (rX rY rZ : Nibble) (s : State) : Answer :=
  finish s do
    let a ← reg s rX
    let b ← reg s rY
    let d ← regIdx rZ
    return { state := s.setReg d (addWrap a b) }

/-- SUB rX, rY -> rZ (R103). -/
def execSub (rX rY rZ : Nibble) (s : State) : Answer :=
  finish s do
    let a ← reg s rX
    let b ← reg s rY
    let d ← regIdx rZ
    return { state := s.setReg d (subClamp a b) }

end Sys2Proof.Machine
end

