-- ==== Sys2Proof/Machine/Dispatch.lean ====
section
/-! DEFINITION. Dispatch by the instruction alone, one arm per constructor and no default arm (50_execution_cycle.md R146).
-/

namespace Sys2Proof.Machine

def exec (i : Instr) (s : State) : Host.Outcome State Fault Refusal :=
  match i with
  | .halt => Sys2Proof.Machine.execHalt s
  | .store rX bb => Sys2Proof.Machine.execStore rX bb s
  | .add rX rY rZ => Sys2Proof.Machine.execAdd rX rY rZ s
  | .sub rX rY rZ => Sys2Proof.Machine.execSub rX rY rZ s
  | .read rX => Sys2Proof.Machine.execRead rX s
  | .write rX => Sys2Proof.Machine.execWrite rX s
  | .jump aaa => Sys2Proof.Machine.execJump aaa s
  | .readKeyboard rX => Sys2Proof.Machine.execReadKeyboard rX s
  | .switchMemory => Sys2Proof.Machine.execSwitchMemory s
  | .skipIfEqual rX rY => Sys2Proof.Machine.execSkipIfEqual rX rY s
  | .skipIfNotEqual rX rY => Sys2Proof.Machine.execSkipIfNotEqual rX rY s
  | .setAddress aaa => Sys2Proof.Machine.execSetAddress aaa s
  | .setTimer tt => Sys2Proof.Machine.execSetTimer tt s
  | .readTimer rX => Sys2Proof.Machine.execReadTimer rX s
  | .convertToBase10 rX => Sys2Proof.Machine.execConvertToBase10 rX s
  | .convertToAscii rX rY => Sys2Proof.Machine.execConvertToAscii rX rY s
  | .draw rX rY rZ => Sys2Proof.Machine.execDraw rX rY rZ s

end Sys2Proof.Machine
end

