-- ==== Sys2Proof/Machine/Cycle.lean ====
section
/-! DEFINITION. One instruction tick (50_execution_cycle.md R140 to R150). -/

namespace Sys2Proof.Machine

/-- A clock's tick does its work only while `LS = Running` and no stop request is pending (R38, R141, R181;
notes/assumptions/9.md). -/
def State.clocksRun (s : State) : Bool := s.ls == .running && !s.stopReq

/-- No cycle starts while an earlier READ_KEYBOARD waits (R141, R201). -/
def State.cycleStarts (s : State) : Bool := s.clocksRun && s.kbdWait.isNone

/-- Steps 1 to 4 of the cycle (R142 to R146, R150). HALT is the first row of the opcode map, so the word 0x0000 is
recognised before any opcode (R144). -/
def cycle (s : State) : Answer :=
  match fetch s s.pc with
  | .error f => .next (takeFatal f s)
  | .ok w =>
    match decodeWord w with
    | none => .next (takeFatal .invalidOpcode s.advance)
    | some i => exec i s.advance

/-- One tick of the instruction clock: one cycle, or nothing at all when it is suppressed (R141, R181, R182). -/
def instructionTick (s : State) : Answer := if s.cycleStarts then cycle s else .next s

end Sys2Proof.Machine
end

