-- ==== Sys2Proof/Machine/Timer.lean ====
section
/-! DEFINITION. The timer agent (52_clocks_lifecycle.md R183 to R185). -/

namespace Sys2Proof.Machine

/-- One tick of the timer clock (R183): `T` is written directly and the event carries its new value; nothing at all
when the tick is suppressed (R181). A waiting READ_KEYBOARD does not stop it (R189). -/
def timerTick (s : State) : State :=
  if s.clocksRun && decide (0 < s.t.toNat) then publish (.timerTick (s.t - 1#8)) { s with t := s.t - 1#8 } else s

end Sys2Proof.Machine
end

