-- ==== Sys2Proof/Machine/Environment.lean ====
section
/-! DEFINITION. One input of the run as one atomic step (52_clocks_lifecycle.md R186, R187; 60_exceptions.md R235), and
where a test word is put so that the next step runs it. -/

namespace Sys2Proof.Machine

/-- The keyboard source's reply (R201, `KbdComplete`): the waiting READ_KEYBOARD ends, whatever `LS` is; a byte nothing
waits for is dropped. -/
def keyReply (k : Byte) (s : State) : State :=
  match s.kbdWait with
  | some d => { s.setReg d k with kbdWait := none }
  | none => s

/-- One input, taken to its end before the next (R186). -/
def perform (q : Stimulus) (s : State) : Answer :=
  match q with
  | .instrTick => instructionTick s
  | .timerTick => .next (timerTick s)
  | .command c => .next (hostCommand c s)
  | .keyReply k => .next (keyReply k s)
  | .subscribe r => .next (subscribe r s)
  | .unsubscribe r => .next (unsubscribe r s)

/-- The next input of the run, taken from the schedule. With none left nothing happens: no core state changes by itself
(R141; notes/assumptions/1.md). -/
def performNext (s : State) : Answer :=
  match s.schedule with
  | [] => .next s
  | q :: rest => perform q { s with schedule := rest }

/-- Where the next cycle fetches; 0, the entry point (R253), when `pc` is outside ROM. -/
def fetchAddr (s : State) : Word := if s.pc.toNat + 1 < Config.memSize then s.pc else 0#16

/-- The word put where the next cycle fetches it, high byte first (R59), and the machine made to run that cycle next:
`Running`, no stop request, no waiting instruction, an instruction tick first (notes/assumptions/10.md). -/
def placeWord (s : State) (v : Word) : State :=
  { s with
    pc := fetchAddr s
    rom := (s.rom.write (fetchAddr s).toNat (highByte v)).write ((fetchAddr s).toNat + 1) (lowByte v)
    ls := .running
    stopReq := false
    kbdWait := none
    schedule := .instrTick :: s.schedule }

end Sys2Proof.Machine
end

