-- ==== Sys2Proof/Machine/Step.lean ====
section
/-! DEFINITION. One step of the machine, and the state whose next step runs a given word. -/

namespace Sys2Proof.Machine

/-- One step: one input of the schedule (50_execution_cycle.md R151; 52_clocks_lifecycle.md R186). -/
def step (s : State) : Host.Outcome State Fault Refusal := performNext s

/-- `s` with the table word `w` where the next step fetches and runs it. -/
def State.withFetchWord (s : State) (nbits w : Nat) : State := placeWord s (tableWord nbits w)

end Sys2Proof.Machine
end

