-- ==== Sys2Proof/Safety.lean ====
section
/-! DEFINITION. What claims about the machine speak of: a safe run, the parts of
the state a frame leaves unchanged, the word the next cycle runs, and the invariants every step keeps, each with the rule
it comes from. None of them is used by the machine itself. -/

namespace Sys2Proof.Machine

/-- The run has not ended in a fatal error (60_exceptions.md R218: a faulted end is never one a correct program is meant
to reach). -/
def State.faultFree (s : State) : Prop := ∀ f, s.cause ≠ .fatal f

/-- The word at `pc` in ROM decodes to `i`: the instruction the next cycle runs (50_execution_cycle.md R142, R145). -/
def State.nextInstr (s : State) (i : Instr) : Prop :=
  decode [s.rom.read s.pc.toNat, s.rom.read (s.pc.toNat + 1)] = .ok (i, [])

/-- A cycle starts at the next instruction tick and its fetch is inside ROM (R58, R141). -/
def State.readyToRun (s : State) : Prop :=
  s.ls = .running ∧ s.stopReq = false ∧ s.kbdWait = none ∧ s.pc.toNat + 1 < 4096

/-! ### What a frame leaves unchanged -/

/-- All eight registers. -/
def sameRegs (s t : State) : Prop := ∀ r : RegIdx, t.reg r = s.reg r

/-- Every byte of both arrays. -/
def sameMemory (s t : State) : Prop := ∀ a : Nat, t.ram.read a = s.ram.read a ∧ t.rom.read a = s.rom.read a

/-- The address register, the timer, the bank flag, the halt address, the keyboard wait and the subscriber set. -/
def sameSpecial (s t : State) : Prop :=
  t.a = s.a ∧ t.t = s.t ∧ t.m = s.m ∧ t.haltPc = s.haltPc ∧ t.kbdWait = s.kbdWait ∧ t.extSubs = s.extSubs

/-- The outputs of the core and the inputs still to come. -/
def sameOutputs (s t : State) : Prop :=
  t.trace = s.trace ∧ t.sinkCalls = s.sinkCalls ∧ t.reply = s.reply ∧ t.schedule = s.schedule

/-- The lifecycle state and its records. -/
def sameLifecycle (s t : State) : Prop := t.ls = s.ls ∧ t.cause = s.cause ∧ t.stopReq = s.stopReq

/-! ### Invariants -/

/-- Is the event a `Halt`? -/
def Event.isHalt : Event → Bool
  | .halt _ => true
  | .switchMemory | .timerSet _ | .timerTick _ | .drawPixel _ _ _ | .refresh => false

/-- Is this a `DrawPixel` event with a value above 127? -/
def Event.drawsNonAscii : Event → Bool
  | .drawPixel _ _ v => decide (127 < v.toNat)
  | .halt _ | .switchMemory | .timerSet _ | .timerTick _ | .refresh => false

/-- Identifiers strictly rising: a set of subscribers as data (51_event_bus.md R163). -/
def subscribersRise (l : List Nat) : Prop := l.Pairwise (· < ·)

/-- Both arrays in canonical form; and, once a program was loaded, the image rule of 20_memory.md R64: ROM reads 0x00 from
3584 up. -/
structure MemoryInv (s : State) : Prop where
  rom_wf : s.rom.wf = true
  ram_wf : s.ram.wf = true
  rom_top : s.ls ≠ .uninitialized → ∀ a, Config.maxProgram ≤ a → s.rom.read a = 0#8

/-- The program counter is even (10_state.md R28), inside ROM while the run has not ended, and at most 4096 ever (R29,
20_memory.md R54); the address register is below 4096 (R23). -/
structure AddressInv (s : State) : Prop where
  pc_even : s.pc.toNat % 2 = 0
  pc_live : s.ls ≠ .halted → s.pc.toNat ≤ 4094
  pc_bound : s.pc.toNat ≤ 4096
  a_bound : s.a.toNat < 4096

/-- `cause` and `stopReq` go with `Halted` (10_state.md R34, R38), and nothing waits before a run (R37). -/
structure LifecycleInv (s : State) : Prop where
  cause_iff : s.ls = .halted ↔ s.cause ≠ .none
  stop_iff : s.ls = .halted ↔ s.stopReq = true
  wait : s.ls = .uninitialized ∨ s.ls = .ready → s.kbdWait = none

/-- The trace and the sink's calls (51_event_bus.md R161, R175), and the subscriber set as data. -/
structure OutputInv (s : State) : Prop where
  mirror : s.sinkCalls = s.trace.flatMap (fun p => sinkCallsOf p.event)
  ascii : ∀ p ∈ s.trace, p.event.drawsNonAscii = false
  subs_rise : subscribersRise s.extSubs

/-- How a run ends (50_execution_cycle.md R153): with `cause = CleanHalt` exactly one `Halt` was published, it is the last
event of the trace and carries `haltPc`, and `pc = haltPc + 2`; with any other cause none was published. -/
structure EndInv (s : State) : Prop where
  clean : s.cause = .cleanHalt →
    ∃ earlier receivers, s.trace = earlier ++ [⟨.halt s.haltPc, receivers⟩] ∧
      (∀ p ∈ earlier, p.event.isHalt = false) ∧ s.pc = s.haltPc + 2#16
  other : s.cause ≠ .cleanHalt → ∀ p ∈ s.trace, p.event.isHalt = false

/-- The invariant of the machine. -/
structure Inv (s : State) : Prop where
  memory : MemoryInv s
  address : AddressInv s
  lifecycle : LifecycleInv s
  output : OutputInv s
  ending : EndInv s

end Sys2Proof.Machine
end

