-- ==== Sys2Proof/Certificates/Slice0/Obligations.lean ====
section
/-! DEFINITION. The statements about the model, one `def Obligations.<Name> : Prop` each, in the order of OBLIGATIONS.json.
An instruction's statement is about `exec`, which starts in the state in which `pc` was already advanced (00_scope.md R9);
`StepRunsDecodedInstruction` carries it to `step`. -/

open Sys2Proof Sys2Proof.Machine

/-! ### Encoding -/

/-- Words written out from 30_encoding.md R81, R86, R91 and the tables of 95_test_vectors.md 2.1. -/
def Obligations.SpecWordsDecode : Prop :=
  decodeWord 0xF789#16 = some (.draw 7#4 8#4 9#4) ∧ decodeWord 0x5ABC#16 = some (.jump 0xABC#12) ∧
  decodeWord 0x0000#16 = some .halt ∧ decodeWord 0x0001#16 = some (.store 0#4 0x01#8) ∧
  decodeWord 0x1234#16 = some (.add 2#4 3#4 4#4) ∧ decodeWord 0x30AB#16 = some (.read 0#4) ∧
  decodeWord 0x912F#16 = some (.skipIfNotEqual 1#4 2#4) ∧ decodeWord 0xB050#16 = some (.setTimer 0x05#8) ∧
  decodeWord 0xE120#16 = some (.convertToAscii 1#4 2#4)

/-- Decoding an encoded well-formed instruction gives it back, from its word and from its two bytes with any bytes after
them: no bit of an encoding is dropped (R81, R86, R92). -/
def Obligations.DecodeInvertsEncode : Prop :=
  ∀ i : Instr, i.wellFormed = true →
    decodeWord (encode i) = some i ∧ ∀ rest : List Byte, decode (encodeBytes i ++ rest) = .ok (i, rest)

/-- R85, R86: the decoder is total, selects by the top nibble alone, and copies out the fields of R81, here as quotients
and remainders. -/
def Obligations.DecoderFollowsOpcodeMap : Prop :=
  decodeWord 0x0000#16 = some .halt ∧
  ∀ w : Word, w ≠ 0x0000#16 →
    let rX : Nibble := BitVec.ofNat 4 (w.toNat / 256 % 16)
    let rY : Nibble := BitVec.ofNat 4 (w.toNat / 16 % 16)
    let rZ : Nibble := BitVec.ofNat 4 (w.toNat % 16)
    let aaa : Addr12 := BitVec.ofNat 12 (w.toNat % 4096)
    decodeWord w = some (match w.toNat / 4096 with
      | 0x0 => .store rX (BitVec.ofNat 8 (w.toNat % 256))
      | 0x1 => .add rX rY rZ
      | 0x2 => .sub rX rY rZ
      | 0x3 => .read rX
      | 0x4 => .write rX
      | 0x5 => .jump aaa
      | 0x6 => .readKeyboard rX
      | 0x7 => .switchMemory
      | 0x8 => .skipIfEqual rX rY
      | 0x9 => .skipIfNotEqual rX rY
      | 0xA => .setAddress aaa
      | 0xB => .setTimer (BitVec.ofNat 8 (w.toNat / 16 % 256))
      | 0xC => .readTimer rX
      | 0xD => .convertToBase10 rX
      | 0xE => .convertToAscii rX rY
      | _ => .draw rX rY rZ)

/-- R88: the bits an instruction does not use may hold anything, and the canonical encoding has them 0. R88 is the
spec's own derivation from R85; SET_TIMER's field is its decision D1. -/
def Obligations.UnusedBitsAreIgnored : Prop :=
  ∀ (w w' : Word) (i : Instr), decodeWord w = some i →
    let used : Word := match i with
      | .halt | .store _ _ | .add _ _ _ | .sub _ _ _ | .draw _ _ _ | .jump _ | .setAddress _ => 0xFFFF#16
      | .read _ | .write _ | .readKeyboard _ | .readTimer _ | .convertToBase10 _ => 0xFF00#16
      | .skipIfEqual _ _ | .skipIfNotEqual _ _ | .convertToAscii _ _ => 0xFFF0#16
      | .switchMemory => 0xF000#16
      | .setTimer _ => 0xFFF0#16
    (w' &&& used = w &&& used → decodeWord w' = some i) ∧ encode i = w &&& used

/-- R87: HALT is the one word 0x0000; 0x0001 to 0x0FFF are STORE; no word stores 0 into `x[0]` by STORE. -/
def Obligations.HaltIsOneExactWord : Prop :=
  (∀ w : Word, decodeWord w = some .halt ↔ w = 0x0000#16) ∧
  (∀ w : Word, 0x0001 ≤ w.toNat → w.toNat ≤ 0x0FFF → ∃ rX bb, decodeWord w = some (.store rX bb)) ∧
  (∀ w : Word, decodeWord w ≠ some (.store 0#4 0#8))

/-! ### The cycle and the clocks -/

/-- A step whose input is an instruction tick runs the instruction at `pc`, after the advance (R142, R143, R145, R146). -/
def Obligations.StepRunsDecodedInstruction : Prop :=
  ∀ (s : State) (i : Instr) (rest : List Stimulus),
    s.schedule = .instrTick :: rest → s.readyToRun → s.nextInstr i →
    step s = exec i { s with schedule := rest, pc := s.pc + 2#16 }

/-- R58: the fetch reads two bytes of ROM, the first in bits 15:8, whatever the bank flag is, and checks its range.
The range test is the spec's own derivation from R53. -/
def Obligations.FetchReadsRomBigEndian : Prop :=
  ∀ (s : State) (a : Word),
    (4096 ≤ a.toNat → fetch s a = .error (.addressOutOfRange a)) ∧
    (a.toNat = 4095 → fetch s a = .error (.addressOutOfRange 4096#16)) ∧
    (a.toNat < 4095 →
      fetch s a = .ok (BitVec.ofNat 16 ((s.rom.read a.toNat).toNat * 256 + (s.rom.read (a.toNat + 1)).toNat))) ∧
    (∀ m ram, fetch { s with m := m, ram := ram } a = fetch s a)

/-- A fetch out of range ends the run with `pc` kept and nothing else changed (R142, R148, R212). The spec's own
decisions D14, D15, D30. -/
def Obligations.FetchFaultKeepsPc : Prop :=
  ∀ (s : State) (rest : List Stimulus),
    s.schedule = .instrTick :: rest → s.ls = .running → s.stopReq = false → s.kbdWait = none → 4096 ≤ s.pc.toNat →
    step s = .next { s with schedule := rest, ls := .halted, cause := .fatal (.addressOutOfRange s.pc), stopReq := true }

/-- R181: a tick of either clock that falls while `LS` is not `Running` does nothing at all and is not queued. -/
def Obligations.SuppressedTicksDoNothing : Prop :=
  ∀ (s : State) (q : Stimulus) (rest : List Stimulus),
    q = .instrTick ∨ q = .timerTick → s.schedule = q :: rest → s.ls ≠ .running →
    step s = .next { s with schedule := rest }

/-- The timer tick (from R183). The premise that no stop request is pending is the model's (DEDUCED,
notes/assumptions/9.md), not R183's; it holds in every state of `Running` that meets the invariant
(EveryStepKeepsInvariant). -/
def Obligations.TimerTickCountsDown : Prop :=
  ∀ (s : State) (rest : List Stimulus), s.schedule = .timerTick :: rest →
    (s.ls = .running → s.stopReq = false → 0 < s.t.toNat →
      step s = .next { s with
        schedule := rest, t := BitVec.ofNat 8 (s.t.toNat - 1),
        trace := s.trace ++ [⟨.timerTick (BitVec.ofNat 8 (s.t.toNat - 1)), s.extSubs⟩] }) ∧
    (s.t.toNat = 0 → step s = .next { s with schedule := rest }) ∧
    (s.ls ≠ .running → step s = .next { s with schedule := rest })

/-- Any number of timer ticks in `Running` (R183, R185, R188): `T` falls by one a tick and stays at 0; one event for each
decrement, carrying the new value; nothing else changes but the inputs. -/
def Obligations.TimerRunReachesZeroAndStays : Prop :=
  ∀ (s : State) (k : Nat) (rest : List Stimulus),
    s.schedule = List.replicate k .timerTick ++ rest → s.ls = .running → s.stopReq = false →
    ∃ events : List Publication,
      Sys2Proof.core.run k s = .next { s with
        schedule := rest, t := BitVec.ofNat 8 (s.t.toNat - k), trace := s.trace ++ events } ∧
      events.length = min k s.t.toNat ∧
      (∀ j, j < events.length → events[j]? = some ⟨.timerTick (BitVec.ofNat 8 (s.t.toNat - 1 - j)), s.extSubs⟩)

/-! ### HALT, STORE, ADD, SUB -/

/-- R100: HALT records its address, publishes one `Halt` event with it, and ends the run cleanly; no tick of either
clock does anything afterwards. The whole tick that fetches 0x0000 ends with `pc = pc0 + 2` and the trace ending in
`Halt(pc0)` (R144). `haltPc` and the event's payload are the spec's own decision D23, the end value of `pc` its
derivation. -/
def Obligations.HaltEndsTheRun : Prop :=
  decodeWord 0x0000#16 = some .halt ∧
  (∀ s : State, ∃ t : State,
    exec .halt s = .next t ∧
    t = { s with
      haltPc := s.pc - 2#16, ls := .halted, cause := .cleanHalt, stopReq := true,
      trace := s.trace ++ [⟨.halt (s.pc - 2#16), s.extSubs⟩] } ∧
    instructionTick t = .next t ∧ timerTick t = t) ∧
  (∀ (s : State) (rest : List Stimulus),
    s.schedule = .instrTick :: rest → s.readyToRun →
    s.rom.read s.pc.toNat = 0x00#8 → s.rom.read (s.pc.toNat + 1) = 0x00#8 →
    step s = .next { s with
      schedule := rest, pc := s.pc + 2#16, haltPc := s.pc, ls := .halted, cause := .cleanHalt, stopReq := true,
      trace := s.trace ++ [⟨.halt s.pc, s.extSubs⟩] })

/-- R101: STORE. The index check is the spec's own decision D2 (R22). -/
def Obligations.StoreWritesImmediate : Prop :=
  ∀ (rX : Nibble) (bb : Byte) (s : State),
    (rX ≠ 0#4 ∨ bb ≠ 0#8 → decodeWord (BitVec.ofNat 16 (256 * rX.toNat + bb.toNat)) = some (.store rX bb)) ∧
    (8 ≤ rX.toNat → exec (.store rX bb) s = .next (takeFatal (.registerIndexRange rX) s)) ∧
    (∀ x : RegIdx, rX.toNat = x → exec (.store rX bb) s = .next (s.setReg x bb))

/-- R102: ADD wraps modulo 256; the indices are checked in the order rX, rY, rZ before any write. The index check is
the spec's own decision D2 (R22). -/
def Obligations.AddWrapsModulo256 : Prop :=
  ∀ (rX rY rZ : Nibble) (s : State),
    decodeWord (BitVec.ofNat 16 (0x1000 + 256 * rX.toNat + 16 * rY.toNat + rZ.toNat)) = some (.add rX rY rZ) ∧
    (8 ≤ rX.toNat → exec (.add rX rY rZ) s = .next (takeFatal (.registerIndexRange rX) s)) ∧
    (rX.toNat < 8 → 8 ≤ rY.toNat → exec (.add rX rY rZ) s = .next (takeFatal (.registerIndexRange rY) s)) ∧
    (rX.toNat < 8 → rY.toNat < 8 → 8 ≤ rZ.toNat →
      exec (.add rX rY rZ) s = .next (takeFatal (.registerIndexRange rZ) s)) ∧
    (∀ x y z : RegIdx, rX.toNat = x → rY.toNat = y → rZ.toNat = z →
      exec (.add rX rY rZ) s =
        .next (s.setReg z (BitVec.ofNat 8 (((s.reg x).toNat + (s.reg y).toNat) % 256))))

/-- R103: SUB clamps at 0. The index check is the spec's own decision D2 (R22). -/
def Obligations.SubClampsAtZero : Prop :=
  ∀ (rX rY rZ : Nibble) (s : State),
    decodeWord (BitVec.ofNat 16 (0x2000 + 256 * rX.toNat + 16 * rY.toNat + rZ.toNat)) = some (.sub rX rY rZ) ∧
    (8 ≤ rX.toNat → exec (.sub rX rY rZ) s = .next (takeFatal (.registerIndexRange rX) s)) ∧
    (rX.toNat < 8 → 8 ≤ rY.toNat → exec (.sub rX rY rZ) s = .next (takeFatal (.registerIndexRange rY) s)) ∧
    (rX.toNat < 8 → rY.toNat < 8 → 8 ≤ rZ.toNat →
      exec (.sub rX rY rZ) s = .next (takeFatal (.registerIndexRange rZ) s)) ∧
    (∀ x y z : RegIdx, rX.toNat = x → rY.toNat = y → rZ.toNat = z →
      exec (.sub rX rY rZ) s = .next (s.setReg z (BitVec.ofNat 8 ((s.reg x).toNat - (s.reg y).toNat))))

/-! ### READ, WRITE, SWITCH_MEMORY, SET_ADDRESS, CONVERT_TO_BASE10 -/

/-- R110: READ loads the byte at `A` of the bank `M` selects. The index check is the spec's own decision D2 (R22). -/
def Obligations.ReadLoadsFromSelectedBank : Prop :=
  ∀ (rX : Nibble) (s : State),
    (∀ low : Byte, decodeWord (BitVec.ofNat 16 (0x3000 + 256 * rX.toNat + low.toNat)) = some (.read rX)) ∧
    (8 ≤ rX.toNat → exec (.read rX) s = .next (takeFatal (.registerIndexRange rX) s)) ∧
    (∀ x : RegIdx, rX.toNat = x →
      (4096 ≤ s.a.toNat → exec (.read rX) s = .next (takeFatal (.addressOutOfRange s.a) s)) ∧
      (s.a.toNat < 4096 → s.m = false → exec (.read rX) s = .next (s.setReg x (s.ram.read s.a.toNat))) ∧
      (s.a.toNat < 4096 → s.m = true → exec (.read rX) s = .next (s.setReg x (s.rom.read s.a.toNat))))

/-- R111: WRITE stores a register at `A` in RAM; with ROM selected it is fatal at every address. The index check is
the spec's own decision D2 (R22), the order bank before range D16. -/
def Obligations.WriteStoresRegisterInRam : Prop :=
  ∀ (rX : Nibble) (s : State),
    (∀ low : Byte, decodeWord (BitVec.ofNat 16 (0x4000 + 256 * rX.toNat + low.toNat)) = some (.write rX)) ∧
    (8 ≤ rX.toNat → exec (.write rX) s = .next (takeFatal (.registerIndexRange rX) s)) ∧
    (∀ x : RegIdx, rX.toNat = x →
      (s.m = true → exec (.write rX) s = .next (takeFatal (.romWrite s.a) s)) ∧
      (s.m = false → 4096 ≤ s.a.toNat → exec (.write rX) s = .next (takeFatal (.addressOutOfRange s.a) s)) ∧
      (s.m = false → s.a.toNat < 4096 →
        exec (.write rX) s = .next { s with ram := s.ram.write s.a.toNat (s.reg x) }))

/-- R112: SWITCH_MEMORY complements `M` once and publishes `SwitchMemory`. -/
def Obligations.SwitchMemoryFlipsBank : Prop :=
  ∀ s : State,
    (∀ low : Addr12, decodeWord (BitVec.ofNat 16 (0x7000 + low.toNat)) = some .switchMemory) ∧
    exec .switchMemory s = .next { s with m := !s.m, trace := s.trace ++ [⟨.switchMemory, s.extSubs⟩] }

/-- R114: SET_ADDRESS writes the 12-bit value with the upper four bits 0; it never faults. -/
def Obligations.SetAddressZeroExtends : Prop :=
  ∀ (aaa : Addr12) (s : State),
    decodeWord (BitVec.ofNat 16 (0xA000 + aaa.toNat)) = some (.setAddress aaa) ∧
    exec (.setAddress aaa) s = .next { s with a := BitVec.ofNat 16 aaa.toNat }

/-- R115: CONVERT_TO_BASE10 stores the three decimal digits at `A`, `A + 1`, `A + 2`; every check comes before the
first write. The index check is the spec's own decision D2, the memory checks and their place before every write D13,
D14. -/
def Obligations.Base10StoresThreeDigits : Prop :=
  ∀ (rX : Nibble) (s : State),
    (∀ low : Byte, decodeWord (BitVec.ofNat 16 (0xD000 + 256 * rX.toNat + low.toNat)) = some (.convertToBase10 rX)) ∧
    (8 ≤ rX.toNat → exec (.convertToBase10 rX) s = .next (takeFatal (.registerIndexRange rX) s)) ∧
    (∀ x : RegIdx, rX.toNat = x →
      (s.m = true → exec (.convertToBase10 rX) s = .next (takeFatal (.romWrite s.a) s)) ∧
      (s.m = false → 4096 ≤ s.a.toNat →
        exec (.convertToBase10 rX) s = .next (takeFatal (.addressOutOfRange s.a) s)) ∧
      (s.m = false → 4094 ≤ s.a.toNat → s.a.toNat < 4096 →
        exec (.convertToBase10 rX) s = .next (takeFatal (.addressOutOfRange 4096#16) s)) ∧
      (s.m = false → s.a.toNat < 4094 →
        exec (.convertToBase10 rX) s = .next { s with
          ram := ((s.ram.write s.a.toNat (BitVec.ofNat 8 ((s.reg x).toNat / 100))).write (s.a.toNat + 1)
            (BitVec.ofNat 8 ((s.reg x).toNat / 10 % 10))).write (s.a.toNat + 2)
            (BitVec.ofNat 8 ((s.reg x).toNat % 10)) }))

/-- The digits CONVERT_TO_BASE10 leaves in memory, read back, are the number (R104, R115). -/
def Obligations.Base10DigitsSpellTheValue : Prop :=
  ∀ (rX : Nibble) (s : State) (x : RegIdx),
    rX.toNat = x → s.ram.wf = true → s.m = false → s.a.toNat < 4094 →
    ∃ t : State, exec (.convertToBase10 rX) s = .next t ∧
      100 * (t.ram.read s.a.toNat).toNat + 10 * (t.ram.read (s.a.toNat + 1)).toNat +
        (t.ram.read (s.a.toNat + 2)).toNat = (s.reg x).toNat ∧
      (t.ram.read s.a.toNat).toNat ≤ 2 ∧ (t.ram.read (s.a.toNat + 1)).toNat ≤ 9 ∧
      (t.ram.read (s.a.toNat + 2)).toNat ≤ 9

/-! ### JUMP and the skips -/

/-- R121: JUMP sets `pc` to an even target and faults on an odd one without writing `pc`. -/
def Obligations.JumpSetsPcOrFaults : Prop :=
  ∀ (aaa : Addr12) (s : State),
    decodeWord (BitVec.ofNat 16 (0x5000 + aaa.toNat)) = some (.jump aaa) ∧
    (aaa.toNat % 2 = 0 → exec (.jump aaa) s = .next { s with pc := BitVec.ofNat 16 aaa.toNat }) ∧
    (aaa.toNat % 2 = 1 → exec (.jump aaa) s = .next (takeFatal (.oddJumpTarget aaa) s))

/-- R122: SKIP_IF_EQUAL. The index check is the spec's own decision D2 (R22). -/
def Obligations.SkipIfEqualSkipsOneWord : Prop :=
  ∀ (rX rY : Nibble) (s : State),
    (∀ low : Nibble,
      decodeWord (BitVec.ofNat 16 (0x8000 + 256 * rX.toNat + 16 * rY.toNat + low.toNat)) = some (.skipIfEqual rX rY)) ∧
    (8 ≤ rX.toNat → exec (.skipIfEqual rX rY) s = .next (takeFatal (.registerIndexRange rX) s)) ∧
    (rX.toNat < 8 → 8 ≤ rY.toNat → exec (.skipIfEqual rX rY) s = .next (takeFatal (.registerIndexRange rY) s)) ∧
    (∀ x y : RegIdx, rX.toNat = x → rY.toNat = y →
      (s.reg x = s.reg y → exec (.skipIfEqual rX rY) s = .next { s with pc := s.pc + 2#16 }) ∧
      (s.reg x ≠ s.reg y → exec (.skipIfEqual rX rY) s = .next s))

/-- R123: SKIP_IF_NOT_EQUAL. The index check is the spec's own decision D2 (R22). -/
def Obligations.SkipIfNotEqualSkipsOneWord : Prop :=
  ∀ (rX rY : Nibble) (s : State),
    (∀ low : Nibble,
      decodeWord (BitVec.ofNat 16 (0x9000 + 256 * rX.toNat + 16 * rY.toNat + low.toNat)) = some (.skipIfNotEqual rX rY)) ∧
    (8 ≤ rX.toNat → exec (.skipIfNotEqual rX rY) s = .next (takeFatal (.registerIndexRange rX) s)) ∧
    (rX.toNat < 8 → 8 ≤ rY.toNat → exec (.skipIfNotEqual rX rY) s = .next (takeFatal (.registerIndexRange rY) s)) ∧
    (∀ x y : RegIdx, rX.toNat = x → rY.toNat = y →
      (s.reg x ≠ s.reg y → exec (.skipIfNotEqual rX rY) s = .next { s with pc := s.pc + 2#16 }) ∧
      (s.reg x = s.reg y → exec (.skipIfNotEqual rX rY) s = .next s))

/-! ### READ_KEYBOARD, SET_TIMER, READ_TIMER, CONVERT_TO_ASCII, DRAW -/

/-- R130 with R37: READ_KEYBOARD writes the byte the keyboard source answers, any byte, or waits for it. That a reply is
at hand when it is the next input of the schedule is the model's form of the source (notes/assumptions/2.md). -/
def Obligations.ReadKeyboardTakesTheByteOrWaits : Prop :=
  ∀ (rX : Nibble) (s : State),
    (∀ low : Byte, decodeWord (BitVec.ofNat 16 (0x6000 + 256 * rX.toNat + low.toNat)) = some (.readKeyboard rX)) ∧
    (8 ≤ rX.toNat → exec (.readKeyboard rX) s = .next (takeFatal (.registerIndexRange rX) s)) ∧
    (∀ x : RegIdx, rX.toNat = x →
      (∀ (k : Byte) (rest : List Stimulus), s.schedule = .keyReply k :: rest →
        exec (.readKeyboard rX) s = .next { s.setReg x k with schedule := rest }) ∧
      ((∀ (k : Byte) (rest : List Stimulus), s.schedule ≠ .keyReply k :: rest) →
        exec (.readKeyboard rX) s = .next { s with kbdWait := some x }))

/-- While an instruction waits, instruction ticks do nothing and the timer goes on (R141, R189); the reply completes
it whatever `LS` is, and a reply nothing waits for is dropped (R201). The spec's own decision D19. -/
def Obligations.KeyReplyCompletesTheWait : Prop :=
  ∀ (s : State) (rest : List Stimulus),
    (∀ d : RegIdx, s.kbdWait = some d →
      (s.schedule = .instrTick :: rest → step s = .next { s with schedule := rest }) ∧
      (∀ k : Byte, s.schedule = .keyReply k :: rest →
        step s = .next { s.setReg d k with schedule := rest, kbdWait := none }) ∧
      (s.schedule = .timerTick :: rest → s.ls = .running → s.stopReq = false → 0 < s.t.toNat →
        ∃ t, step s = .next t ∧ t.t.toNat = s.t.toNat - 1 ∧ t.kbdWait = some d)) ∧
    (∀ k : Byte, s.kbdWait = none → s.schedule = .keyReply k :: rest → step s = .next { s with schedule := rest })

/-- R131: SET_TIMER publishes `TimerSet(tt)`, and at the end of the tick `T = tt`; it never faults. The immediate's
field is the spec's own decision D1 (R84). -/
def Obligations.SetTimerSetsTAndPublishes : Prop :=
  ∀ (tt : Byte) (s : State),
    (∀ low : Nibble, decodeWord (BitVec.ofNat 16 (0xB000 + 16 * tt.toNat + low.toNat)) = some (.setTimer tt)) ∧
    exec (.setTimer tt) s = .next { s with t := tt, trace := s.trace ++ [⟨.timerSet tt, s.extSubs⟩] }

/-- R132: READ_TIMER copies `T`, which it does not change. The index check is the spec's own decision D2 (R22). -/
def Obligations.ReadTimerCopiesT : Prop :=
  ∀ (rX : Nibble) (s : State),
    (∀ low : Byte, decodeWord (BitVec.ofNat 16 (0xC000 + 256 * rX.toNat + low.toNat)) = some (.readTimer rX)) ∧
    (8 ≤ rX.toNat → exec (.readTimer rX) s = .next (takeFatal (.registerIndexRange rX) s)) ∧
    (∀ x : RegIdx, rX.toNat = x → exec (.readTimer rX) s = .next (s.setReg x s.t))

/-- R133: CONVERT_TO_ASCII of a value 0 to 15; a value above 15 is fatal and leaves the destination alone. The source
operand and the upper case are the spec's own decision D12, the index check D2, the order D16. -/
def Obligations.ConvertToAsciiWritesTheDigit : Prop :=
  ∀ (rX rY : Nibble) (s : State),
    (∀ low : Nibble,
      decodeWord (BitVec.ofNat 16 (0xE000 + 256 * rX.toNat + 16 * rY.toNat + low.toNat)) = some (.convertToAscii rX rY)) ∧
    (8 ≤ rX.toNat → exec (.convertToAscii rX rY) s = .next (takeFatal (.registerIndexRange rX) s)) ∧
    (rX.toNat < 8 → 8 ≤ rY.toNat → exec (.convertToAscii rX rY) s = .next (takeFatal (.registerIndexRange rY) s)) ∧
    (∀ x y : RegIdx, rX.toNat = x → rY.toNat = y →
      (15 < (s.reg x).toNat → exec (.convertToAscii rX rY) s = .next (takeFatal (.asciiRange (s.reg x)) s)) ∧
      ((s.reg x).toNat ≤ 9 →
        exec (.convertToAscii rX rY) s = .next (s.setReg y (BitVec.ofNat 8 (0x30 + (s.reg x).toNat)))) ∧
      (9 < (s.reg x).toNat → (s.reg x).toNat ≤ 15 →
        exec (.convertToAscii rX rY) s = .next (s.setReg y (BitVec.ofNat 8 (0x41 + ((s.reg x).toNat - 10))))))

/-- R134: DRAW emits `DrawPixel(rY, rZ, x[rX])` and then `Refresh`, and the sink gets the two calls; the checks come
in the order index, value, coordinates, and a faulting DRAW emits nothing. The spec's own decisions D9, D10, D11
(strict, literal coordinates, Refresh), D2 and D16. -/
def Obligations.DrawEmitsPixelThenRefresh : Prop :=
  ∀ (rX rY rZ : Nibble) (s : State),
    decodeWord (BitVec.ofNat 16 (0xF000 + 256 * rX.toNat + 16 * rY.toNat + rZ.toNat)) = some (.draw rX rY rZ) ∧
    (8 ≤ rX.toNat → exec (.draw rX rY rZ) s = .next (takeFatal (.registerIndexRange rX) s)) ∧
    (∀ x : RegIdx, rX.toNat = x →
      (127 < (s.reg x).toNat → exec (.draw rX rY rZ) s = .next (takeFatal (.drawValueRange (s.reg x)) s)) ∧
      ((s.reg x).toNat ≤ 127 → (7 < rY.toNat ∨ 7 < rZ.toNat) →
        exec (.draw rX rY rZ) s =
          .next (takeFatal (.displayRange (BitVec.ofNat 8 rY.toNat) (BitVec.ofNat 8 rZ.toNat)) s)) ∧
      (∀ px py : Coord, (s.reg x).toNat ≤ 127 → rY.toNat = px → rZ.toNat = py →
        exec (.draw rX rY rZ) s = .next { s with
          trace := s.trace ++ [⟨.drawPixel px py (s.reg x), s.extSubs⟩, ⟨.refresh, s.extSubs⟩],
          sinkCalls := s.sinkCalls ++ [.drawPixel px py (s.reg x), .refresh] }))

/-- The alternative `DRAW_COORD_MODE = register` (R136): the coordinates are the contents of the registers rY and rZ. The
order of the index checks before the value check in this mode is the model's choice (notes/assumptions/3.md). -/
def Obligations.DrawRegisterModeReadsCoordinates : Prop :=
  ∀ (p : Params) (rX rY rZ : Nibble) (s : State) (x y z : RegIdx) (px py : Coord),
    p.drawCoordMode = .register → p.drawEmitsRefresh = true →
    rX.toNat = x → rY.toNat = y → rZ.toNat = z → (s.reg x).toNat ≤ 127 →
    (s.reg y).toNat = px → (s.reg z).toNat = py →
    drawEffects p rX rY rZ s = .ok { state := s, events := [.drawPixel px py (s.reg x), .refresh] }

/-! ### Frames -/

/-- The frame of the instructions that write one register, named by the field `d`: STORE, ADD, SUB, READ, READ_TIMER,
CONVERT_TO_ASCII. Everything else is unchanged, every byte of memory among it (R21, R43, R62), unless the instruction
took a fatal error, whose entry then writes `LS`, `cause` and `stopReq`. That a fault has no other effect is the
spec's own decision D14. -/
def Obligations.RegisterWritersFrame : Prop :=
  ∀ (i : Instr) (d : Nibble) (s t : State),
    (∃ bb, i = .store d bb) ∨ (∃ rX rY, i = .add rX rY d) ∨ (∃ rX rY, i = .sub rX rY d) ∨ i = .read d ∨
      i = .readTimer d ∨ (∃ rX, i = .convertToAscii rX d) →
    exec i s = .next t →
    (∀ r : RegIdx, r.val ≠ d.toNat → t.reg r = s.reg r) ∧ sameMemory s t ∧ sameSpecial s t ∧ sameOutputs s t ∧
      t.pc = s.pc ∧ (sameLifecycle s t ∨ ∃ f, t = takeFatal f s)

/-- The frame of the instructions that store to RAM: WRITE stores one byte at `dataAddr s 0`, CONVERT_TO_BASE10 three
at `dataAddr s 0`, `dataAddr s 1`, `dataAddr s 2`; every other byte reads as before (R57, R62, R111, R115). That a
fault has no other effect is the spec's own decision D14. -/
def Obligations.RamWritersFrame : Prop :=
  ∀ (s t : State) (rX : Nibble), s.ram.wf = true →
    (exec (.write rX) s = .next t →
      sameRegs s t ∧ sameSpecial s t ∧ sameOutputs s t ∧ t.pc = s.pc ∧ (sameLifecycle s t ∨ ∃ f, t = takeFatal f s) ∧
      (∀ a, t.rom.read a = s.rom.read a) ∧
      (∀ a, a ≠ (dataAddr s 0#16).toNat → t.ram.read a = s.ram.read a)) ∧
    (exec (.convertToBase10 rX) s = .next t →
      sameRegs s t ∧ sameSpecial s t ∧ sameOutputs s t ∧ t.pc = s.pc ∧ (sameLifecycle s t ∨ ∃ f, t = takeFatal f s) ∧
      (∀ a, t.rom.read a = s.rom.read a) ∧
      (∀ a, a ≠ (dataAddr s 0#16).toNat → a ≠ (dataAddr s 1#16).toNat → a ≠ (dataAddr s 2#16).toNat →
        t.ram.read a = s.ram.read a))

/-- The frame of JUMP and the skips: only `pc` (and the records of a fatal error) may change (R120, R27). That a fault
has no other effect is the spec's own decision D14. -/
def Obligations.ControlTransferFrame : Prop :=
  ∀ (i : Instr) (s t : State),
    (∃ aaa, i = .jump aaa) ∨ (∃ rX rY, i = .skipIfEqual rX rY) ∨ (∃ rX rY, i = .skipIfNotEqual rX rY) →
    exec i s = .next t →
    sameRegs s t ∧ sameMemory s t ∧ sameSpecial s t ∧ sameOutputs s t ∧ (sameLifecycle s t ∨ ∃ f, t = takeFatal f s)

/-- The frame of the instructions that write a special register or publish: SET_ADDRESS writes `A` alone,
SWITCH_MEMORY `M` and the trace, SET_TIMER `T` and the trace, DRAW the trace and the sink's calls, HALT `haltPc`, the
trace and the lifecycle records (R43, R227). That a fault has no other effect is the spec's own decision D14. -/
def Obligations.SpecialWritersFrame : Prop :=
  ∀ (i : Instr) (s t : State),
    (∃ aaa, i = .setAddress aaa) ∨ i = .switchMemory ∨ (∃ tt, i = .setTimer tt) ∨ (∃ rX rY rZ, i = .draw rX rY rZ) ∨
      i = .halt →
    exec i s = .next t →
    sameRegs s t ∧ sameMemory s t ∧ t.pc = s.pc ∧ t.kbdWait = s.kbdWait ∧ t.extSubs = s.extSubs ∧ t.reply = s.reply ∧
      t.schedule = s.schedule ∧
      (t.a ≠ s.a → ∃ aaa, i = .setAddress aaa) ∧ (t.m ≠ s.m → i = .switchMemory) ∧
      (t.t ≠ s.t → ∃ tt, i = .setTimer tt) ∧ (t.haltPc ≠ s.haltPc → i = .halt) ∧
      (t.sinkCalls ≠ s.sinkCalls → ∃ rX rY rZ, i = .draw rX rY rZ) ∧
      (t.trace ≠ s.trace → ∀ aaa, i ≠ .setAddress aaa) ∧
      (sameLifecycle s t ∨ i = .halt ∨ ∃ f, t = takeFatal f s)

/-- The frame of READ_KEYBOARD: its destination register, the wait, and the reply it takes from the inputs (R130,
R37). The wait is the spec's own decision D19; the inputs as state are notes/assumptions/1.md, 2.md. -/
def Obligations.ReadKeyboardFrame : Prop :=
  ∀ (rX : Nibble) (s t : State), exec (.readKeyboard rX) s = .next t →
    (∀ r : RegIdx, r.val ≠ rX.toNat → t.reg r = s.reg r) ∧ sameMemory s t ∧ t.a = s.a ∧ t.t = s.t ∧ t.m = s.m ∧
      t.haltPc = s.haltPc ∧ t.extSubs = s.extSubs ∧ t.trace = s.trace ∧ t.sinkCalls = s.sinkCalls ∧
      t.reply = s.reply ∧ t.pc = s.pc ∧ (sameLifecycle s t ∨ ∃ f, t = takeFatal f s) ∧
      (t.schedule = s.schedule ∨ ∃ k, s.schedule = .keyReply k :: t.schedule)

/-! ### Data memory -/

/-- R56: the data read. -/
def Obligations.DataReadChecksRangeAndSelectsBank : Prop :=
  ∀ (s : State) (addr : Word),
    (4096 ≤ addr.toNat → memRead s addr = .error (.addressOutOfRange addr)) ∧
    (addr.toNat < 4096 → s.m = true → memRead s addr = .ok (s.rom.read addr.toNat)) ∧
    (addr.toNat < 4096 → s.m = false → memRead s addr = .ok (s.ram.read addr.toNat))

/-- R57: the data write tests the bank, then the range, and changes exactly one byte of RAM and nothing else. -/
def Obligations.DataWriteChangesOneByte : Prop :=
  ∀ (s : State) (addr : Word) (v : Byte), s.ram.wf = true →
    (s.m = true → memWrite s addr v = .error (.romWrite addr)) ∧
    (s.m = false → 4096 ≤ addr.toNat → memWrite s addr v = .error (.addressOutOfRange addr)) ∧
    (s.m = false → addr.toNat < 4096 → ∃ t, memWrite s addr v = .ok t ∧
      (∀ b, t.ram.read b = if b = addr.toNat then v else s.ram.read b) ∧ t = { s with ram := t.ram })

/-- The source's property of R63 and R111: writing N to RAM at address A and then reading A returns N, for all valid A;
writing to ROM at any address fails. -/
def Obligations.WriteThenReadReturnsTheByte : Prop :=
  ∀ (rX rY : Nibble) (s : State) (x y : RegIdx), rX.toNat = x → rY.toNat = y → s.ram.wf = true →
    (s.m = false → s.a.toNat < 4096 →
      ∃ t u, exec (.write rX) s = .next t ∧ exec (.read rY) t = .next u ∧ u.reg y = s.reg x) ∧
    (s.m = true → ∃ t, exec (.write rX) s = .next t ∧ t.cause = .fatal (.romWrite s.a) ∧ sameMemory s t)

/-! ### Fatal errors -/

/-- R212: an instruction tick that raises a fatal error changes `LS`, `cause`, the stop request and `pc` alone; `pc`
is `pc0` when the fetch raised it and `pc0 + 2` otherwise; no event is published; no tick of either clock does
anything afterwards. The spec's own decisions D14, D15, D30. -/
def Obligations.FatalErrorHasNoOtherEffect : Prop :=
  ∀ (s t : State) (rest : List Stimulus) (f : FatalError),
    s.schedule = .instrTick :: rest → s.cause = .none → step s = .next t → t.cause = .fatal f →
    t = { s with
      schedule := rest, ls := .halted, cause := .fatal f, stopReq := true,
      pc := if s.pc.toNat + 1 < 4096 then s.pc + 2#16 else s.pc } ∧
    instructionTick t = .next t ∧ timerTick t = t

/-- R213: once `Halted`, `cause` and `LS` are not overwritten by anything but an accepted `load`, which clears
`cause`. R213 is the spec's own derivation from R212 and R181. -/
def Obligations.CauseIsKeptUntilLoad : Prop :=
  ∀ s t : State, s.ls = .halted → step s = .next t →
    (t.ls = .halted ∧ t.cause = s.cause ∧ t.haltPc = s.haltPc ∧ t.trace = s.trace) ∨
    (t.ls = .ready ∧ t.cause = .none ∧ ∃ bytes rest, s.schedule = .command (.load bytes) :: rest)

/-- R89, R211, R212: no instruction and no input stops the machine; an instruction with a used register field above 7,
an odd JUMP target or a DRAW coordinate above 7 always ends in a fatal error; and only an instruction tick can end a
fault-free run in one. The register check is the spec's own decision D2, the coordinates' D10; that a fault is a next
state is notes/assumptions/6.md. -/
def Obligations.FatalErrorsComeFromInstructions : Prop :=
  ∀ (i : Instr) (s : State),
    (∃ t, step s = .next t) ∧ (∃ t, exec i s = .next t) ∧
    (i.executable = false → ∃ f, exec i s = .next (takeFatal f s)) ∧
    (∀ (q : Stimulus) (rest : List Stimulus) (t : State), s.schedule = q :: rest → q ≠ .instrTick → s.faultFree →
      step s = .next t → t.faultFree)

/-! ### The lifecycle -/

/-- R205: the result of every command in every lifecycle state, with the reply; a violation and `InvalidRom` change
nothing else. R205 is the spec's own derivation from R192 to R199; the reply to a violation is its decision D8,
`InvalidRom` D5, the atomic `shutdown` D18. -/
def Obligations.CommandTable : Prop :=
  ∀ (s : State) (bytes : List Byte),
    ((s.ls = .uninitialized ∨ s.ls = .halted) →
      (bytes.length ≤ 3584 →
        (hostCommand (.load bytes) s).ls = .ready ∧ (hostCommand (.load bytes) s).reply = some .ok) ∧
      (3584 < bytes.length → hostCommand (.load bytes) s = { s with reply := some .invalidRom })) ∧
    (s.ls ≠ .uninitialized → s.ls ≠ .halted →
      hostCommand (.load bytes) s = { s with reply := some (.lifecycleViolation s.ls (.load bytes)) }) ∧
    (s.ls = .ready → hostCommand .start s = { s with ls := .running, reply := some .ok }) ∧
    (s.ls ≠ .ready → hostCommand .start s = { s with reply := some (.lifecycleViolation s.ls .start) }) ∧
    (s.ls = .running → hostCommand .pause s = { s with ls := .paused, reply := some .ok }) ∧
    (s.ls ≠ .running → hostCommand .pause s = { s with reply := some (.lifecycleViolation s.ls .pause) }) ∧
    (s.ls = .paused → hostCommand .resume s = { s with ls := .running, reply := some .ok }) ∧
    (s.ls ≠ .paused → hostCommand .resume s = { s with reply := some (.lifecycleViolation s.ls .resume) }) ∧
    ((s.ls = .ready ∨ s.ls = .running ∨ s.ls = .paused) →
      hostCommand .shutdown s = { s with ls := .halted, cause := .shutdown, stopReq := true, reply := some .ok }) ∧
    ((s.ls = .uninitialized ∨ s.ls = .halted) →
      hostCommand .shutdown s = { s with reply := some (.lifecycleViolation s.ls .shutdown) })

/-- R252: an accepted `load` installs the image, zeroes the rest of ROM and all of RAM, and resets every register; the
subscriber set is unchanged. The placement and the zero fill are the spec's own decision D4, the reset values D3, the
full reset D6. -/
def Obligations.LoadInstallsImageAndResets : Prop :=
  ∀ (s : State) (bytes : List Byte) (rest : List Stimulus),
    s.schedule = .command (.load bytes) :: rest → (s.ls = .uninitialized ∨ s.ls = .halted) → bytes.length ≤ 3584 →
    ∃ t : State, step s = .next t ∧
      (∀ (j : Nat) (h : j < bytes.length), t.rom.read j = bytes[j]) ∧
      (∀ j, bytes.length ≤ j → t.rom.read j = 0x00#8) ∧ (∀ j, t.ram.read j = 0x00#8) ∧
      (∀ r : RegIdx, t.reg r = 0#8) ∧ t.a = 0#16 ∧ t.t = 0#8 ∧ t.pc = 0#16 ∧ t.m = false ∧ t.cause = .none ∧
      t.haltPc = 0#16 ∧ t.kbdWait = none ∧ t.stopReq = false ∧ t.ls = .ready ∧ t.extSubs = s.extSubs

/-- R192: every step leaves `LS` as it is or takes one of the eight legal transitions, each by its own trigger. -/
def Obligations.OnlyLegalTransitions : Prop :=
  ∀ s t : State, step s = .next t → t.ls ≠ s.ls → ∃ (q : Stimulus) (rest : List Stimulus), s.schedule = q :: rest ∧
    ((s.ls = .uninitialized ∧ t.ls = .ready ∧ ∃ bytes, q = .command (.load bytes)) ∨
     (s.ls = .ready ∧ t.ls = .running ∧ q = .command .start) ∨
     (s.ls = .ready ∧ t.ls = .halted ∧ q = .command .shutdown) ∨
     (s.ls = .running ∧ t.ls = .paused ∧ q = .command .pause) ∨
     (s.ls = .paused ∧ t.ls = .running ∧ q = .command .resume) ∨
     (s.ls = .running ∧ t.ls = .halted ∧
       (q = .command .shutdown ∨ (q = .instrTick ∧ (t.cause = .cleanHalt ∨ ∃ f, t.cause = .fatal f)))) ∨
     (s.ls = .paused ∧ t.ls = .halted ∧ q = .command .shutdown) ∨
     (s.ls = .halted ∧ t.ls = .ready ∧ ∃ bytes, q = .command (.load bytes)))

/-- R233, R194: `ready-for-load` is true exactly when a `load` of legal length is accepted. -/
def Obligations.ReadyForLoadMeansLoadIsAccepted : Prop :=
  ∀ (s : State) (bytes : List Byte), bytes.length ≤ 3584 →
    (s.readyForLoad = true ↔ (hostCommand (.load bytes) s).reply = some .ok)

/-! ### The keyboard wait -/

/-- R151: a READ_KEYBOARD that waits through timer ticks and is then answered ends in the same state as one executed
at the moment the answer arrives, when no host command comes in between. R151 says it as the spec's own derivation,
with its decision D19; the form of the keyboard source is notes/assumptions/2.md. -/
def Obligations.WaitedReadEqualsAnsweredRead : Prop :=
  ∀ (s : State) (rX : Nibble) (k : Byte) (n : Nat) (rest : List Stimulus),
    rX.toNat < 8 → s.readyToRun → s.nextInstr (.readKeyboard rX) →
    Sys2Proof.core.run (n + 3)
        { s with schedule := .instrTick :: (List.replicate (n + 1) .timerTick ++ .keyReply k :: rest) } =
      Sys2Proof.core.run (n + 2)
        { s with schedule := List.replicate (n + 1) .timerTick ++ .instrTick :: .keyReply k :: rest }

/-! ### The event bus -/

/-- R168, R169, R170 and R165: one publication adds one entry to the trace, with the external subscribers of that
moment; the CPU's handler flips `M` on `SwitchMemory` and writes `T` on `TimerSet`, the lifecycle handler ends the run
on `Halt`, and on no other kind. The three fixed handlers are the spec's own decision D20, the sink's calls D31, the
trace D27. -/
def Obligations.PublicationRunsTheHandlers : Prop :=
  ∀ (e : Event) (s : State),
    (publish e s).trace = s.trace ++ [⟨e, s.extSubs⟩] ∧
    (publish e s).m = (if e = .switchMemory then !s.m else s.m) ∧
    (∀ v, e = .timerSet v → (publish e s).t = v) ∧ ((∀ v, e ≠ .timerSet v) → (publish e s).t = s.t) ∧
    ((∃ p, e = .halt p) → (publish e s).ls = .halted ∧ (publish e s).cause = .cleanHalt ∧
      (publish e s).clocksRun = false) ∧
    ((∀ p, e ≠ .halt p) → sameLifecycle s (publish e s)) ∧
    (publish e s).sinkCalls = s.sinkCalls ++ sinkCallsOf e ∧ sameRegs s (publish e s) ∧ sameMemory s (publish e s)

/-- R167: nothing in the state depends on the order in which the receivers of one event get it. -/
def Obligations.DeliveryOrderIsImmaterial : Prop :=
  ∀ (e : Event) (s : State) (order : List Receiver), order.Perm s.subs →
    order.foldl (receive e) s = s.subs.foldl (receive e) s

/-- R163, R164: subscribing adds one member and unsubscribing removes one; both are idempotent; the built-in receivers
stay; nothing but the set changes. Idempotence and the fixed handlers are the spec's own decisions D24, D20; the
rising list is notes/assumptions/11.md. -/
def Obligations.SubscriptionsAreASet : Prop :=
  ∀ (n k : Nat) (r : Receiver) (s : State), subscribersRise s.extSubs →
    (k ∈ (subscribe (.external n) s).extSubs ↔ k = n ∨ k ∈ s.extSubs) ∧
    (k ∈ (unsubscribe (.external n) s).extSubs ↔ k ≠ n ∧ k ∈ s.extSubs) ∧
    (n ∈ s.extSubs → subscribe (.external n) s = s) ∧ (n ∉ s.extSubs → unsubscribe (.external n) s = s) ∧
    subscribersRise (subscribe r s).extSubs ∧ subscribersRise (unsubscribe r s).extSubs ∧
    (∀ b : Receiver, b = .cpu ∨ b = .lifecycle ∨ b = .display →
      b ∈ (unsubscribe r s).subs ∧ subscribe b s = s ∧ unsubscribe b s = s) ∧
    (subscribe r s = { s with extSubs := (subscribe r s).extSubs }) ∧
    (unsubscribe r s = { s with extSubs := (unsubscribe r s).extSubs })

/-! ### Rules of the whole machine -/

/-- Which agent may write what (from R43). An instruction tick writes `A` only by SET_ADDRESS, `T` only by SET_TIMER, `M`
only by SWITCH_MEMORY, RAM only by WRITE and CONVERT_TO_BASE10, `haltPc` only by HALT, and never ROM or the subscriber
set; a timer tick writes `T` alone, downwards, and the trace; a host command writes core state (`LS`, `cause` and the stop
request apart, R198) only by `load`; subscribe and unsubscribe requests write the subscriber set alone. The clause about a
keyboard reply, which writes `x` and the wait alone, is not R43's, which has no such agent: it is the completion of
READ_KEYBOARD (R201, the spec's own decision D19) in the model's form of the source (notes/assumptions/2.md). -/
def Obligations.WriteAccessByAgent : Prop :=
  ∀ (s t : State) (q : Stimulus) (rest : List Stimulus), s.schedule = q :: rest → step s = .next t →
    (q = .instrTick →
      t.rom = s.rom ∧ t.extSubs = s.extSubs ∧ t.reply = s.reply ∧
      (t.a ≠ s.a → ∃ aaa, s.nextInstr (.setAddress aaa)) ∧ (t.t ≠ s.t → ∃ tt, s.nextInstr (.setTimer tt)) ∧
      (t.m ≠ s.m → s.nextInstr .switchMemory) ∧
      (t.ram ≠ s.ram → ∃ rX, s.nextInstr (.write rX) ∨ s.nextInstr (.convertToBase10 rX)) ∧
      (t.haltPc ≠ s.haltPc → s.nextInstr .halt) ∧ (t.ls ≠ s.ls → s.ls = .running ∧ t.ls = .halted) ∧
      (t.cause ≠ s.cause → t.ls = .halted)) ∧
    (q = .timerTick →
      t = { s with schedule := rest, t := t.t, trace := t.trace } ∧
      (t.t ≠ s.t → s.ls = .running ∧ t.t.toNat + 1 = s.t.toNat)) ∧
    (∀ c, q = .command c →
      t.extSubs = s.extSubs ∧
      ((t.x ≠ s.x ∨ t.a ≠ s.a ∨ t.t ≠ s.t ∨ t.m ≠ s.m ∨ t.pc ≠ s.pc ∨ t.rom ≠ s.rom ∨ t.ram ≠ s.ram ∨
          t.haltPc ≠ s.haltPc) → ∃ bytes, c = .load bytes)) ∧
    (∀ k, q = .keyReply k → t = { s with schedule := rest, x := t.x, kbdWait := none }) ∧
    (∀ r, q = .subscribe r ∨ q = .unsubscribe r → t = { s with schedule := rest, extSubs := t.extSubs })

/-- R188: what an instruction does depends on `T` only in READ_TIMER: with another value of `T` every other
instruction ends in the same state but for `T` itself. R188 is the spec's own derivation. -/
def Obligations.TimerValueReachesOnlyReadTimer : Prop :=
  ∀ (i : Instr) (s t : State) (v : Byte), (∀ rX, i ≠ .readTimer rX) → exec i s = .next t →
    ((∀ tt, i ≠ .setTimer tt) → exec i { s with t := v } = .next { t with t := v }) ∧
    (∀ tt, i = .setTimer tt → exec i { s with t := v } = .next t)

/-! ### Invariants -/

/-- The state after power-on reset (R250). All values but `LS` and RAM are the spec's own decision D3. -/
def Obligations.PowerOnState : Prop :=
  State.reset.ls = .uninitialized ∧ (∀ a, State.reset.ram.read a = 0x00#8) ∧ (∀ r : RegIdx, State.reset.reg r = 0#8) ∧
  State.reset.a = 0#16 ∧ State.reset.t = 0#8 ∧ State.reset.pc = 0#16 ∧ State.reset.m = false ∧
  State.reset.cause = .none ∧ State.reset.subs = [.cpu, .lifecycle, .display] ∧ State.reset.kbdWait = none ∧
  State.reset.stopReq = false ∧ State.reset.haltPc = 0#16

/-- The invariant of the machine holds after reset. The reset values are the spec's own decision D3. -/
def Obligations.ResetMeetsInvariant : Prop := Inv State.reset

/-- The invariant of the machine, kept by every step from every state that meets it: canonical memories with the top
of ROM zero once loaded, `pc` even and inside ROM while the run lives (R28, R29, R54), `A` below 4096 (R23), `cause` and the stop
request set exactly in `Halted` (R34, R38), the sink's calls mirroring the trace (R175), no drawn value above 127
(R161), and one `Halt` event, the last, exactly at a clean end (R153). It rests on the spec's own decisions D3, D4,
D9, D14, D18 and on notes/assumptions/4.md, 5.md. -/
def Obligations.EveryStepKeepsInvariant : Prop :=
  ∀ s t : State, Inv s → step s = .next t → Inv t

/-- R28: every step keeps `pc` even; an explicit set to an odd address is an error and writes nothing. -/
def Obligations.PcStaysEven : Prop :=
  (∀ s t : State, s.pc.toNat % 2 = 0 → step s = .next t → t.pc.toNat % 2 = 0) ∧
  (∀ (s : State) (aaa : Addr12), aaa.toNat % 2 = 1 → applyAction (.setPc aaa) s = .error (.oddJumpTarget aaa))

/-- R23: every step keeps bits 15 to 12 of `A` at 0. R23 gives it as the spec's own derivation. -/
def Obligations.AddressRegisterStaysTwelveBits : Prop :=
  ∀ s t : State, s.a.toNat < 4096 → step s = .next t → t.a.toNat < 4096

/-- Every step keeps both memories in canonical form, so equal memories stay equal data (the model's form,
notes/assumptions/5.md). -/
def Obligations.MemoriesStayCanonical : Prop :=
  ∀ s t : State, s.rom.wf = true → s.ram.wf = true → step s = .next t → t.rom.wf = true ∧ t.ram.wf = true

/-- R175: the calls on the display sink mirror the `DrawPixel` and `Refresh` events one for one, and every step keeps
it so. The trace is the spec's own decision D27. -/
def Obligations.SinkCallsMirrorTheTrace : Prop :=
  ∀ s t : State, s.sinkCalls = s.trace.flatMap (fun p => sinkCallsOf p.event) → step s = .next t →
    t.sinkCalls = t.trace.flatMap (fun p => sinkCallsOf p.event)

/-- R54: in a state that meets the invariant a cycle's fetch is never out of range, and neither is READ's or WRITE's
address. R54 is the spec's own derivation, with its decision D4. -/
def Obligations.LoadedMachineNeverFetchesOutOfRange : Prop :=
  ∀ s : State, Inv s →
    (s.cycleStarts = true → ∃ w, fetch s s.pc = .ok w) ∧
    (∃ v, memRead s s.a = .ok v) ∧ (∀ v f, memWrite s s.a v = .error f → f = .romWrite s.a)
end

