-- ==== Sys2Proof/Laws/Bus.lean ====
section
/-! SUPPORT. Everything a publication does, once (51_event_bus.md R165, R168 to R172): external subscribers change no core
state, so a publication is its trace entry and the three built-in handlers. -/

namespace Sys2Proof.Machine

/-- External subscribers are sinks (R171). -/
theorem foldl_receive_external (e : Event) (ids : List Nat) (s : State) :
    (ids.map Receiver.external).foldl (receive e) s = s := by
  induction ids generalizing s with
  | nil => rfl
  | cons n rest ih => simpa [receive] using ih s

/-- A publication is its trace entry and the built-in handlers. -/
theorem publish_eq (e : Event) (s : State) :
    publish e s =
      displayHandler e (lifecycleHandler e (cpuHandler e { s with trace := s.trace ++ [⟨e, s.extSubs⟩] })) := by
  unfold publish State.subs
  rw [List.foldl_append, foldl_receive_external]
  rfl

@[simp] theorem publish_halt (p : Word) (s : State) :
    publish (.halt p) s =
      { s with trace := s.trace ++ [⟨.halt p, s.extSubs⟩], ls := .halted, cause := .cleanHalt, stopReq := true } := by
  simp [publish_eq, cpuHandler, lifecycleHandler, displayHandler, sinkCallsOf]

@[simp] theorem publish_switchMemory (s : State) :
    publish .switchMemory s = { s with trace := s.trace ++ [⟨.switchMemory, s.extSubs⟩], m := !s.m } := by
  simp [publish_eq, cpuHandler, lifecycleHandler, displayHandler, sinkCallsOf]

@[simp] theorem publish_timerSet (v : Byte) (s : State) :
    publish (.timerSet v) s = { s with trace := s.trace ++ [⟨.timerSet v, s.extSubs⟩], t := v } := by
  simp [publish_eq, cpuHandler, lifecycleHandler, displayHandler, sinkCallsOf]

@[simp] theorem publish_timerTick (v : Byte) (s : State) :
    publish (.timerTick v) s = { s with trace := s.trace ++ [⟨.timerTick v, s.extSubs⟩] } := by
  simp [publish_eq, cpuHandler, lifecycleHandler, displayHandler, sinkCallsOf]

@[simp] theorem publish_drawPixel (x y : Coord) (v : Byte) (s : State) :
    publish (.drawPixel x y v) s =
      { s with trace := s.trace ++ [⟨.drawPixel x y v, s.extSubs⟩], sinkCalls := s.sinkCalls ++ [.drawPixel x y v] } := by
  simp [publish_eq, cpuHandler, lifecycleHandler, displayHandler, sinkCallsOf]

@[simp] theorem publish_refresh (s : State) :
    publish .refresh s =
      { s with trace := s.trace ++ [⟨.refresh, s.extSubs⟩], sinkCalls := s.sinkCalls ++ [.refresh] } := by
  simp [publish_eq, cpuHandler, lifecycleHandler, displayHandler, sinkCallsOf]

@[simp] theorem publishAll_nil (s : State) : publishAll [] s = s := rfl

@[simp] theorem publishAll_cons (e : Event) (es : List Event) (s : State) :
    publishAll (e :: es) s = publishAll es (publish e s) := rfl

/-! What no event touches, and what every event does to the outputs. -/

@[simp] theorem publish_x (e : Event) (s : State) : (publish e s).x = s.x := by cases e <;> simp
@[simp] theorem publish_a (e : Event) (s : State) : (publish e s).a = s.a := by cases e <;> simp
@[simp] theorem publish_pc (e : Event) (s : State) : (publish e s).pc = s.pc := by cases e <;> simp
@[simp] theorem publish_rom (e : Event) (s : State) : (publish e s).rom = s.rom := by cases e <;> simp
@[simp] theorem publish_ram (e : Event) (s : State) : (publish e s).ram = s.ram := by cases e <;> simp
@[simp] theorem publish_haltPc (e : Event) (s : State) : (publish e s).haltPc = s.haltPc := by cases e <;> simp
@[simp] theorem publish_extSubs (e : Event) (s : State) : (publish e s).extSubs = s.extSubs := by cases e <;> simp
@[simp] theorem publish_kbdWait (e : Event) (s : State) : (publish e s).kbdWait = s.kbdWait := by cases e <;> simp
@[simp] theorem publish_schedule (e : Event) (s : State) : (publish e s).schedule = s.schedule := by cases e <;> simp
@[simp] theorem publish_reply (e : Event) (s : State) : (publish e s).reply = s.reply := by cases e <;> simp

@[simp] theorem publish_trace (e : Event) (s : State) :
    (publish e s).trace = s.trace ++ [⟨e, s.extSubs⟩] := by cases e <;> simp

@[simp] theorem publish_sinkCalls (e : Event) (s : State) :
    (publish e s).sinkCalls = s.sinkCalls ++ sinkCallsOf e := by cases e <;> simp [sinkCallsOf]

/-! The subscriber set. -/

theorem mem_insertSubscriber (n k : Nat) (l : List Nat) : k ∈ insertSubscriber n l ↔ k = n ∨ k ∈ l := by
  induction l with
  | nil => simp [insertSubscriber]
  | cons j rest ih =>
    unfold insertSubscriber
    split
    · simp
    · split
      · next h => subst h; simp
      · simp only [List.mem_cons, ih]
        exact or_left_comm

/-- Adding a member keeps the identifiers strictly rising. -/
theorem pairwise_insertSubscriber (n : Nat) (l : List Nat) (h : l.Pairwise (· < ·)) :
    (insertSubscriber n l).Pairwise (· < ·) := by
  induction l with
  | nil => simp [insertSubscriber]
  | cons j rest ih =>
    obtain ⟨hj, hrest⟩ := List.pairwise_cons.1 h
    unfold insertSubscriber
    split
    · next hn =>
      refine List.pairwise_cons.2 ⟨fun k hk => ?_, h⟩
      rcases List.mem_cons.1 hk with rfl | hk
      · exact hn
      · exact hn.trans (hj k hk)
    · split
      · exact h
      · next h1 h2 =>
        refine List.pairwise_cons.2 ⟨fun k hk => ?_, ih hrest⟩
        rcases (mem_insertSubscriber n k rest).1 hk with rfl | hk
        · omega
        · exact hj k hk

end Sys2Proof.Machine
end

