-- ==== Sys2Proof/Laws/Decode.lean ====
section
/-! SUPPORT. The bit fields as numbers, the packed words as numbers, the opcode map by opcode, and the bytes of a word. A
fact about fields and packed words is then linear arithmetic. -/

namespace Sys2Proof

theorem toNat_append_add {n m : Nat} (x : BitVec n) (y : BitVec m) :
    (x ++ y).toNat = x.toNat * 2 ^ m + y.toNat := by
  rw [BitVec.toNat_append, ← Nat.shiftLeft_add_eq_or_of_lt y.isLt, Nat.shiftLeft_eq]

/-! ### Packed words (R81) -/

theorem toNat_packNibbles (op x y z : Nibble) :
    (packNibbles op x y z).toNat = op.toNat * 4096 + x.toNat * 256 + y.toNat * 16 + z.toNat := by
  show (op ++ x ++ y ++ z : BitVec (4 + 4 + 4 + 4)).toNat = _
  simp only [toNat_append_add]
  omega

theorem toNat_packAddr (op : Nibble) (aaa : Addr12) : (packAddr op aaa).toNat = op.toNat * 4096 + aaa.toNat :=
  toNat_append_add op aaa

theorem toNat_packLowByte (op x : Nibble) (b : Byte) :
    (packLowByte op x b).toNat = op.toNat * 4096 + x.toNat * 256 + b.toNat := by
  show (op ++ x ++ b : BitVec (4 + 4 + 8)).toNat = _
  simp only [toNat_append_add]
  omega

theorem toNat_packMiddleByte (op : Nibble) (b : Byte) (z : Nibble) :
    (packMiddleByte op b z).toNat = op.toNat * 4096 + b.toNat * 16 + z.toNat := by
  show (op ++ b ++ z : BitVec (4 + 8 + 4)).toNat = _
  simp only [toNat_append_add]
  omega

/-! ### Fields (R81) -/

theorem toNat_fieldOpcode (w : Word) : (fieldOpcode w).toNat = w.toNat / 4096 := by
  have := w.isLt
  simp only [fieldOpcode, BitVec.extractLsb'_toNat, Nat.shiftRight_eq_div_pow]
  omega

theorem toNat_fieldRX (w : Word) : (fieldRX w).toNat = w.toNat / 256 % 16 := by
  simp [fieldRX, BitVec.extractLsb'_toNat, Nat.shiftRight_eq_div_pow]

theorem toNat_fieldRY (w : Word) : (fieldRY w).toNat = w.toNat / 16 % 16 := by
  simp [fieldRY, BitVec.extractLsb'_toNat, Nat.shiftRight_eq_div_pow]

theorem toNat_fieldRZ (w : Word) : (fieldRZ w).toNat = w.toNat % 16 := by
  simp [fieldRZ, BitVec.extractLsb'_toNat]

theorem toNat_fieldAAA (w : Word) : (fieldAAA w).toNat = w.toNat % 4096 := by
  simp [fieldAAA, BitVec.extractLsb'_toNat]

theorem toNat_fieldBB (w : Word) : (fieldBB w).toNat = w.toNat % 256 := by
  simp [fieldBB, BitVec.extractLsb'_toNat]

theorem toNat_fieldTT_middle (w : Word) : (fieldTT .middle w).toNat = w.toNat / 16 % 256 := by
  simp [fieldTT, BitVec.extractLsb'_toNat, Nat.shiftRight_eq_div_pow]

/-! ### The opcode map by opcode (R86) -/

theorem mask_top_nibble (w : Word) : w &&& 0xF000#16 = packAddr (fieldOpcode w) 0x000#12 := by
  apply BitVec.eq_of_getLsbD_eq
  intro i hi
  have e : ∀ j, (packAddr (fieldOpcode w) 0x000#12).getLsbD j =
      if j < 12 then (0x000#12).getLsbD j else (fieldOpcode w).getLsbD (j - 12) := fun j => by
    show (fieldOpcode w ++ 0x000#12 : BitVec (4 + 12)).getLsbD j = _
    rw [BitVec.getLsbD_append]
  rw [e]
  interval_cases i <;> simp [fieldOpcode]

/-- A row with the mask 0xF000 matches a word when the word's top nibble is the row's. -/
theorem top_nibble_matches (w m : Word) : ((w &&& 0xF000#16) == m) = decide (w.toNat / 4096 * 4096 = m.toNat) := by
  rw [mask_top_nibble, Bool.eq_iff_iff, beq_iff_eq, decide_eq_true_iff, ← BitVec.toNat_inj, toNat_packAddr,
    toNat_fieldOpcode, show (0x000#12).toNat = 0 from rfl, Nat.add_zero]

theorem all_bits_match (w m : Word) : ((w &&& 0xFFFF#16) == m) = (w == m) := by
  have : w &&& 0xFFFF#16 = w := BitVec.and_allOnes (x := w)
  rw [this]

@[simp] theorem decodeWord_zero : decodeWord 0x0000#16 = some .halt := by decide

/-- The instruction of every word but 0x0000, by its top nibble (R85, R86). -/
theorem decodeWord_nonzero (w : Word) (h : w ≠ 0x0000#16) :
    decodeWord w = some (match w.toNat / 4096 with
      | 0 => .store (fieldRX w) (fieldBB w)
      | 1 => .add (fieldRX w) (fieldRY w) (fieldRZ w)
      | 2 => .sub (fieldRX w) (fieldRY w) (fieldRZ w)
      | 3 => .read (fieldRX w)
      | 4 => .write (fieldRX w)
      | 5 => .jump (fieldAAA w)
      | 6 => .readKeyboard (fieldRX w)
      | 7 => .switchMemory
      | 8 => .skipIfEqual (fieldRX w) (fieldRY w)
      | 9 => .skipIfNotEqual (fieldRX w) (fieldRY w)
      | 10 => .setAddress (fieldAAA w)
      | 11 => .setTimer (fieldTT Machine.params.timerImmField w)
      | 12 => .readTimer (fieldRX w)
      | 13 => .convertToBase10 (fieldRX w)
      | 14 => .convertToAscii (fieldRX w) (fieldRY w)
      | _ => .draw (fieldRX w) (fieldRY w) (fieldRZ w)) := by
  have h0 : (w == 0x0000#16) = false := by simpa using h
  have hk : w.toNat / 4096 < 16 := by have := w.isLt; omega
  generalize hq : w.toNat / 4096 = k at hk
  interval_cases k <;>
    simp [decodeWord, opcodeRows, opcodeRowsLow, opcodeRowsHigh, OpcodeRow.matches, top_nibble_matches,
      all_bits_match, h0, hq]

/-! ### Bytes (R59) -/

theorem toNat_wordOfBytes (hi lo : Byte) : (wordOfBytes hi lo).toNat = hi.toNat * 256 + lo.toNat :=
  toNat_append_add hi lo

theorem toNat_highByte (w : Word) : (highByte w).toNat = w.toNat / 256 := by
  have := w.isLt
  simp only [highByte, BitVec.extractLsb'_toNat, Nat.shiftRight_eq_div_pow]
  omega

theorem toNat_lowByte (w : Word) : (lowByte w).toNat = w.toNat % 256 := by
  simp [lowByte, BitVec.extractLsb'_toNat]

/-- The two bytes of a word make the word again. -/
@[simp] theorem wordOfBytes_bytes (w : Word) : wordOfBytes (highByte w) (lowByte w) = w := by
  apply BitVec.eq_of_toNat_eq
  rw [toNat_wordOfBytes, toNat_highByte, toNat_lowByte]
  omega

end Sys2Proof
end

