-- ==== Sys2Proof/Laws/State.lean ====
section
/-! SUPPORT. One lemma per field per named update of the state, true by rfl, so that no later proof unfolds a record
update; and reading a register after a write. -/

namespace Sys2Proof.Machine

/-! `setReg` writes one register and nothing else (R20). -/

@[simp] theorem State.setReg_x (s : State) (i : RegIdx) (v : Byte) : (s.setReg i v).x = s.x.set i v := rfl
@[simp] theorem State.setReg_a (s : State) (i : RegIdx) (v : Byte) : (s.setReg i v).a = s.a := rfl
@[simp] theorem State.setReg_t (s : State) (i : RegIdx) (v : Byte) : (s.setReg i v).t = s.t := rfl
@[simp] theorem State.setReg_m (s : State) (i : RegIdx) (v : Byte) : (s.setReg i v).m = s.m := rfl
@[simp] theorem State.setReg_pc (s : State) (i : RegIdx) (v : Byte) : (s.setReg i v).pc = s.pc := rfl
@[simp] theorem State.setReg_rom (s : State) (i : RegIdx) (v : Byte) : (s.setReg i v).rom = s.rom := rfl
@[simp] theorem State.setReg_ram (s : State) (i : RegIdx) (v : Byte) : (s.setReg i v).ram = s.ram := rfl
@[simp] theorem State.setReg_ls (s : State) (i : RegIdx) (v : Byte) : (s.setReg i v).ls = s.ls := rfl
@[simp] theorem State.setReg_cause (s : State) (i : RegIdx) (v : Byte) : (s.setReg i v).cause = s.cause := rfl
@[simp] theorem State.setReg_haltPc (s : State) (i : RegIdx) (v : Byte) : (s.setReg i v).haltPc = s.haltPc := rfl
@[simp] theorem State.setReg_extSubs (s : State) (i : RegIdx) (v : Byte) : (s.setReg i v).extSubs = s.extSubs := rfl
@[simp] theorem State.setReg_kbdWait (s : State) (i : RegIdx) (v : Byte) : (s.setReg i v).kbdWait = s.kbdWait := rfl
@[simp] theorem State.setReg_stopReq (s : State) (i : RegIdx) (v : Byte) : (s.setReg i v).stopReq = s.stopReq := rfl
@[simp] theorem State.setReg_schedule (s : State) (i : RegIdx) (v : Byte) : (s.setReg i v).schedule = s.schedule := rfl
@[simp] theorem State.setReg_trace (s : State) (i : RegIdx) (v : Byte) : (s.setReg i v).trace = s.trace := rfl
@[simp] theorem State.setReg_sinkCalls (s : State) (i : RegIdx) (v : Byte) : (s.setReg i v).sinkCalls = s.sinkCalls := rfl
@[simp] theorem State.setReg_reply (s : State) (i : RegIdx) (v : Byte) : (s.setReg i v).reply = s.reply := rfl

/-! `setRam` writes RAM and nothing else (R57). -/

@[simp] theorem State.setRam_x (s : State) (addr : Word) (v : Byte) : (s.setRam addr v).x = s.x := rfl
@[simp] theorem State.setRam_a (s : State) (addr : Word) (v : Byte) : (s.setRam addr v).a = s.a := rfl
@[simp] theorem State.setRam_t (s : State) (addr : Word) (v : Byte) : (s.setRam addr v).t = s.t := rfl
@[simp] theorem State.setRam_m (s : State) (addr : Word) (v : Byte) : (s.setRam addr v).m = s.m := rfl
@[simp] theorem State.setRam_pc (s : State) (addr : Word) (v : Byte) : (s.setRam addr v).pc = s.pc := rfl
@[simp] theorem State.setRam_rom (s : State) (addr : Word) (v : Byte) : (s.setRam addr v).rom = s.rom := rfl
@[simp] theorem State.setRam_ram (s : State) (addr : Word) (v : Byte) : (s.setRam addr v).ram = s.ram.write addr.toNat v := rfl
@[simp] theorem State.setRam_ls (s : State) (addr : Word) (v : Byte) : (s.setRam addr v).ls = s.ls := rfl
@[simp] theorem State.setRam_cause (s : State) (addr : Word) (v : Byte) : (s.setRam addr v).cause = s.cause := rfl
@[simp] theorem State.setRam_haltPc (s : State) (addr : Word) (v : Byte) : (s.setRam addr v).haltPc = s.haltPc := rfl
@[simp] theorem State.setRam_extSubs (s : State) (addr : Word) (v : Byte) : (s.setRam addr v).extSubs = s.extSubs := rfl
@[simp] theorem State.setRam_kbdWait (s : State) (addr : Word) (v : Byte) : (s.setRam addr v).kbdWait = s.kbdWait := rfl
@[simp] theorem State.setRam_stopReq (s : State) (addr : Word) (v : Byte) : (s.setRam addr v).stopReq = s.stopReq := rfl
@[simp] theorem State.setRam_schedule (s : State) (addr : Word) (v : Byte) : (s.setRam addr v).schedule = s.schedule := rfl
@[simp] theorem State.setRam_trace (s : State) (addr : Word) (v : Byte) : (s.setRam addr v).trace = s.trace := rfl
@[simp] theorem State.setRam_sinkCalls (s : State) (addr : Word) (v : Byte) : (s.setRam addr v).sinkCalls = s.sinkCalls := rfl
@[simp] theorem State.setRam_reply (s : State) (addr : Word) (v : Byte) : (s.setRam addr v).reply = s.reply := rfl

/-! `advance` writes `pc` and nothing else (R143). -/

@[simp] theorem State.advance_x (s : State) : s.advance.x = s.x := rfl
@[simp] theorem State.advance_a (s : State) : s.advance.a = s.a := rfl
@[simp] theorem State.advance_t (s : State) : s.advance.t = s.t := rfl
@[simp] theorem State.advance_m (s : State) : s.advance.m = s.m := rfl
@[simp] theorem State.advance_pc (s : State) : s.advance.pc = s.pc + 2#16 := rfl
@[simp] theorem State.advance_rom (s : State) : s.advance.rom = s.rom := rfl
@[simp] theorem State.advance_ram (s : State) : s.advance.ram = s.ram := rfl
@[simp] theorem State.advance_ls (s : State) : s.advance.ls = s.ls := rfl
@[simp] theorem State.advance_cause (s : State) : s.advance.cause = s.cause := rfl
@[simp] theorem State.advance_haltPc (s : State) : s.advance.haltPc = s.haltPc := rfl
@[simp] theorem State.advance_extSubs (s : State) : s.advance.extSubs = s.extSubs := rfl
@[simp] theorem State.advance_kbdWait (s : State) : s.advance.kbdWait = s.kbdWait := rfl
@[simp] theorem State.advance_stopReq (s : State) : s.advance.stopReq = s.stopReq := rfl
@[simp] theorem State.advance_schedule (s : State) : s.advance.schedule = s.schedule := rfl
@[simp] theorem State.advance_trace (s : State) : s.advance.trace = s.trace := rfl
@[simp] theorem State.advance_sinkCalls (s : State) : s.advance.sinkCalls = s.sinkCalls := rfl
@[simp] theorem State.advance_reply (s : State) : s.advance.reply = s.reply := rfl

/-! Taking a fatal error writes `LS`, `cause` and `stopReq` and nothing else (R212). -/

@[simp] theorem takeFatal_x (f : FatalError) (s : State) : (takeFatal f s).x = s.x := rfl
@[simp] theorem takeFatal_a (f : FatalError) (s : State) : (takeFatal f s).a = s.a := rfl
@[simp] theorem takeFatal_t (f : FatalError) (s : State) : (takeFatal f s).t = s.t := rfl
@[simp] theorem takeFatal_m (f : FatalError) (s : State) : (takeFatal f s).m = s.m := rfl
@[simp] theorem takeFatal_pc (f : FatalError) (s : State) : (takeFatal f s).pc = s.pc := rfl
@[simp] theorem takeFatal_rom (f : FatalError) (s : State) : (takeFatal f s).rom = s.rom := rfl
@[simp] theorem takeFatal_ram (f : FatalError) (s : State) : (takeFatal f s).ram = s.ram := rfl
@[simp] theorem takeFatal_ls (f : FatalError) (s : State) : (takeFatal f s).ls = .halted := rfl
@[simp] theorem takeFatal_cause (f : FatalError) (s : State) : (takeFatal f s).cause = .fatal f := rfl
@[simp] theorem takeFatal_haltPc (f : FatalError) (s : State) : (takeFatal f s).haltPc = s.haltPc := rfl
@[simp] theorem takeFatal_extSubs (f : FatalError) (s : State) : (takeFatal f s).extSubs = s.extSubs := rfl
@[simp] theorem takeFatal_kbdWait (f : FatalError) (s : State) : (takeFatal f s).kbdWait = s.kbdWait := rfl
@[simp] theorem takeFatal_stopReq (f : FatalError) (s : State) : (takeFatal f s).stopReq = true := rfl
@[simp] theorem takeFatal_schedule (f : FatalError) (s : State) : (takeFatal f s).schedule = s.schedule := rfl
@[simp] theorem takeFatal_trace (f : FatalError) (s : State) : (takeFatal f s).trace = s.trace := rfl
@[simp] theorem takeFatal_sinkCalls (f : FatalError) (s : State) : (takeFatal f s).sinkCalls = s.sinkCalls := rfl
@[simp] theorem takeFatal_reply (f : FatalError) (s : State) : (takeFatal f s).reply = s.reply := rfl

/-! An accepted `load` (R252), field by field. -/

@[simp] theorem loadImage_x (bytes : List Byte) (s : State) : (loadImage bytes s).x = Vector.replicate 8 0#8 := rfl
@[simp] theorem loadImage_a (bytes : List Byte) (s : State) : (loadImage bytes s).a = 0#16 := rfl
@[simp] theorem loadImage_t (bytes : List Byte) (s : State) : (loadImage bytes s).t = 0#8 := rfl
@[simp] theorem loadImage_m (bytes : List Byte) (s : State) : (loadImage bytes s).m = false := rfl
@[simp] theorem loadImage_pc (bytes : List Byte) (s : State) : (loadImage bytes s).pc = 0#16 := rfl
@[simp] theorem loadImage_rom (bytes : List Byte) (s : State) : (loadImage bytes s).rom = Memory.ofBytes 0 bytes := rfl
@[simp] theorem loadImage_ram (bytes : List Byte) (s : State) : (loadImage bytes s).ram = [] := rfl
@[simp] theorem loadImage_ls (bytes : List Byte) (s : State) : (loadImage bytes s).ls = .ready := rfl
@[simp] theorem loadImage_cause (bytes : List Byte) (s : State) : (loadImage bytes s).cause = .none := rfl
@[simp] theorem loadImage_haltPc (bytes : List Byte) (s : State) : (loadImage bytes s).haltPc = 0#16 := rfl
@[simp] theorem loadImage_extSubs (bytes : List Byte) (s : State) : (loadImage bytes s).extSubs = s.extSubs := rfl
@[simp] theorem loadImage_kbdWait (bytes : List Byte) (s : State) : (loadImage bytes s).kbdWait = none := rfl
@[simp] theorem loadImage_stopReq (bytes : List Byte) (s : State) : (loadImage bytes s).stopReq = false := rfl
@[simp] theorem loadImage_schedule (bytes : List Byte) (s : State) : (loadImage bytes s).schedule = s.schedule := rfl
@[simp] theorem loadImage_trace (bytes : List Byte) (s : State) : (loadImage bytes s).trace = [] := rfl
@[simp] theorem loadImage_sinkCalls (bytes : List Byte) (s : State) : (loadImage bytes s).sinkCalls = [] := rfl
@[simp] theorem loadImage_reply (bytes : List Byte) (s : State) : (loadImage bytes s).reply = s.reply := rfl

/-! Registers (R20). -/

@[simp] theorem State.reg_setReg_same (s : State) (i : RegIdx) (v : Byte) : (s.setReg i v).reg i = v := by
  simp [State.reg, State.setReg]

theorem State.reg_setReg_ne (s : State) {i j : RegIdx} (v : Byte) (h : i ≠ j) : (s.setReg i v).reg j = s.reg j := by
  have h' : (i : Nat) ≠ (j : Nat) := fun e => h (Fin.ext e)
  simpa [State.reg, State.setReg] using Vector.getElem_set_ne i.2 j.2 h'

theorem State.reg_setReg (s : State) (i j : RegIdx) (v : Byte) :
    (s.setReg i v).reg j = if i = j then v else s.reg j := by
  split
  · next h => subst h; simp
  · next h => exact State.reg_setReg_ne s v h

/-- A register is read from `x` alone. -/
theorem State.reg_congr {s t : State} (h : s.x = t.x) (i : RegIdx) : s.reg i = t.reg i := by
  simp [State.reg, h]

@[simp] theorem State.reg_takeFatal (f : FatalError) (s : State) (i : RegIdx) : (takeFatal f s).reg i = s.reg i := rfl

@[simp] theorem State.reg_setRam (s : State) (addr : Word) (v : Byte) (i : RegIdx) :
    (s.setRam addr v).reg i = s.reg i := rfl

@[simp] theorem State.reg_advance (s : State) (i : RegIdx) : s.advance.reg i = s.reg i := rfl

/-- `pc0` names the address an instruction was fetched from (R9, R143). -/
@[simp] theorem State.pc0_advance (s : State) : s.advance.pc0 = s.pc := by
  simp [State.pc0, State.advance]

/-- All eight registers of a freshly loaded machine are 0 (R252). -/
@[simp] theorem State.reg_loadImage (bytes : List Byte) (s : State) (i : RegIdx) : (loadImage bytes s).reg i = 0#8 := by
  simp [State.reg, loadImage]

end Sys2Proof.Machine
end

