-- ==== Sys2Proof/Laws/Ops.lean ====
section
/-! SUPPORT. One lemma per shared operation: the checks, register and memory access, fetching, the PC action, and what
`finish` can answer. -/

namespace Sys2Proof.Machine

/-! ### Sequencing -/

@[simp] theorem ok_bind {α β : Type} (a : α) (f : α → Except FatalError β) : (Except.ok a >>= f) = f a := rfl

@[simp] theorem error_bind {α β : Type} (e : FatalError) (f : α → Except FatalError β) :
    ((Except.error e : Except FatalError α) >>= f) = .error e := rfl

@[simp] theorem pure_eq_ok {α : Type} (a : α) : (pure a : Except FatalError α) = .ok a := rfl

/-- A sequence succeeds when its first part does and its second part does on the result. -/
theorem bind_eq_ok {α β : Type} {x : Except FatalError α} {f : α → Except FatalError β} {b : β} :
    (x >>= f) = .ok b ↔ ∃ a, x = .ok a ∧ f a = .ok b := by
  cases x <;> simp

/-! ### Checks -/

theorem require_pos {p : Prop} [Decidable p] (f : FatalError) (h : p) : require p f = .ok () := by
  simp [require, h]

theorem require_neg {p : Prop} [Decidable p] (f : FatalError) (h : ¬p) : require p f = .error f := by
  simp [require, h]

@[simp] theorem require_eq_ok {p : Prop} [Decidable p] {f : FatalError} {u : Unit} :
    require p f = .ok u ↔ p := by
  by_cases h : p <;> simp [require, h]

theorem regIdx_of_lt {f : Nibble} (h : f.toNat < 8) : regIdx f = .ok ⟨f.toNat, h⟩ := by
  simp [regIdx, h]

theorem regIdx_of_ge {f : Nibble} (h : 8 ≤ f.toNat) : regIdx f = .error (.registerIndexRange f) := by
  simp [regIdx, Nat.not_lt.2 h]

theorem regIdx_eq_ok {f : Nibble} {i : RegIdx} : regIdx f = .ok i ↔ f.toNat = i.val := by
  unfold regIdx
  split
  · simp [Fin.ext_iff]
  · next h => simp; omega

theorem reg_of_lt (s : State) {f : Nibble} (h : f.toNat < 8) : reg s f = .ok (s.reg ⟨f.toNat, h⟩) := by
  simp [reg, regIdx_of_lt h]

theorem reg_of_ge (s : State) {f : Nibble} (h : 8 ≤ f.toNat) : reg s f = .error (.registerIndexRange f) := by
  simp [reg, regIdx_of_ge h]

theorem toCoords_of_lt {px py : Byte} (hx : px.toNat < 8) (hy : py.toNat < 8) :
    toCoords (px, py) = .ok (⟨px.toNat, hx⟩, ⟨py.toNat, hy⟩) := by
  simp [toCoords, hx, hy]

theorem toCoords_of_ge {px py : Byte} (h : 8 ≤ px.toNat ∨ 8 ≤ py.toNat) :
    toCoords (px, py) = .error (.displayRange px py) := by
  have h' : ¬ (px.toNat < 8 ∧ py.toNat < 8) := by omega
  simp [toCoords, h']

/-! ### Memory access -/

@[simp] theorem dataAddr_zero (s : State) : dataAddr s 0#16 = s.a := by simp [dataAddr]

theorem memRead_in (s : State) {addr : Word} (h : addr.toNat < Config.memSize) :
    memRead s addr = .ok (if s.m then s.rom.read addr.toNat else s.ram.read addr.toNat) := by
  simp [memRead, require_pos _ h]

theorem memRead_out (s : State) {addr : Word} (h : ¬ addr.toNat < Config.memSize) :
    memRead s addr = .error (.addressOutOfRange addr) := by
  simp [memRead, require_neg _ h]

theorem checkWrite_rom (s : State) (addr : Word) (h : s.m = true) : checkWrite s addr = .error (.romWrite addr) := by
  simp [checkWrite, require_neg (.romWrite addr) (show ¬ s.m = false by simp [h])]

theorem checkWrite_out (s : State) {addr : Word} (hm : s.m = false) (h : ¬ addr.toNat < Config.memSize) :
    checkWrite s addr = .error (.addressOutOfRange addr) := by
  simp [checkWrite, require_pos _ hm, require_neg _ h]

theorem checkWrite_in (s : State) {addr : Word} (hm : s.m = false) (h : addr.toNat < Config.memSize) :
    checkWrite s addr = .ok () := by
  simp [checkWrite, require_pos _ hm, require_pos _ h]

/-- When a data write passes its checks (R57). -/
theorem checkWrite_eq_ok {s : State} {addr : Word} {u : Unit} :
    checkWrite s addr = .ok u ↔ s.m = false ∧ addr.toNat < Config.memSize := by
  simp [checkWrite, bind_eq_ok]

theorem fetch_in (s : State) {addr : Word} (h : addr.toNat + 1 < Config.memSize) :
    fetch s addr = .ok (wordOfBytes (s.rom.read addr.toNat) (s.rom.read (addr.toNat + 1))) := by
  simp [fetch, require_pos _ h, require_pos (.addressOutOfRange addr) (Nat.lt_of_succ_lt h)]

theorem fetch_out (s : State) {addr : Word} (h : Config.memSize ≤ addr.toNat) :
    fetch s addr = .error (.addressOutOfRange addr) := by
  simp [fetch, require_neg (.addressOutOfRange addr) (Nat.not_lt.2 h)]

/-! ### Ending an instruction -/

@[simp] theorem applyAction_noChange (s : State) : applyAction .noChange s = .ok s := rfl

@[simp] theorem applyAction_increment (n : Word) (s : State) :
    applyAction (.increment n) s = .ok { s with pc := s.pc + n } := rfl

theorem applyAction_setPc_even (s : State) {aaa : Addr12} (h : aaa.toNat % 2 = 0) :
    applyAction (.setPc aaa) s = .ok { s with pc := aaa.setWidth 16 } := by
  simp [applyAction, require_pos _ h]

theorem applyAction_setPc_odd (s : State) {aaa : Addr12} (h : aaa.toNat % 2 = 1) :
    applyAction (.setPc aaa) s = .error (.oddJumpTarget aaa) := by
  simp [applyAction, require_neg (.oddJumpTarget aaa) (show ¬ aaa.toNat % 2 = 0 by omega)]

/-- A PC action writes `pc` and nothing else (R147). -/
theorem applyAction_ok {p : PcAction} {s t : State} (h : applyAction p s = .ok t) : t = { s with pc := t.pc } := by
  cases p with
  | noChange => cases h; rfl
  | increment n => cases h; rfl
  | setPc aaa =>
    simp only [applyAction, bind_eq_ok, pure_eq_ok] at h
    obtain ⟨_, _, h⟩ := h
    cases h
    rfl

@[simp] theorem finish_error (s : State) (f : FatalError) : finish s (.error f) = .next (takeFatal f s) := rfl

@[simp] theorem finish_noChange (s s' : State) (es : List Event) :
    finish s (.ok { state := s', action := .noChange, events := es }) = .next (publishAll es s') := rfl

@[simp] theorem finish_increment (s s' : State) (n : Word) (es : List Event) :
    finish s (.ok { state := s', action := .increment n, events := es }) =
      .next (publishAll es { s' with pc := s'.pc + n }) := rfl

theorem finish_setPc_even (s s' : State) {aaa : Addr12} (es : List Event) (h : aaa.toNat % 2 = 0) :
    finish s (.ok { state := s', action := .setPc aaa, events := es }) =
      .next (publishAll es { s' with pc := aaa.setWidth 16 }) := by
  simp [finish, applyAction_setPc_even s' h]

theorem finish_setPc_odd (s s' : State) {aaa : Addr12} (es : List Event) (h : aaa.toNat % 2 = 1) :
    finish s (.ok { state := s', action := .setPc aaa, events := es }) = .next (takeFatal (.oddJumpTarget aaa) s) := by
  simp [finish, applyAction_setPc_odd s' h]

/-- What ending an instruction can answer: the fault with none of its effects, or the effects, a new `pc` at most, and
the events (R146 to R150). Never a stop. -/
theorem finish_cases (s : State) (r : Except FatalError Effects) :
    (∃ f, finish s r = .next (takeFatal f s)) ∨
    (∃ e s', r = .ok e ∧ applyAction e.action e.state = .ok s' ∧ finish s r = .next (publishAll e.events s')) := by
  cases r with
  | error f => exact .inl ⟨f, rfl⟩
  | ok e =>
    cases h : applyAction e.action e.state with
    | error f => exact .inl ⟨f, by simp [finish, h]⟩
    | ok s' => exact .inr ⟨e, s', rfl, h, by simp [finish, h]⟩

end Sys2Proof.Machine
end

