-- ==== Sys2Proof/Laws/Exec.lean ====
section
/-! SUPPORT. Everything an instruction can do, once: it takes a fatal error with no other effect, or it does what
`Completes` says. Later proofs cite `exec_cases` and never unfold a meaning. -/

namespace Sys2Proof.Machine

/-- What each instruction has done when it raised nothing, in the state `s` in which `pc` was already advanced. -/
def Completes (i : Instr) (s t : State) : Prop :=
  match i with
  | .halt => t = publish (.halt s.pc0) { s with haltPc := s.pc0 }
  | .store _ bb => ∃ d, t = s.setReg d bb
  | .add _ _ _ | .sub _ _ _ | .read _ | .convertToAscii _ _ => ∃ d v, t = s.setReg d v
  | .write _ => s.m = false ∧ s.a.toNat < Config.memSize ∧ ∃ v, t = s.setRam s.a v
  | .jump aaa => aaa.toNat % 2 = 0 ∧ t = { s with pc := aaa.setWidth 16 }
  | .readKeyboard _ => ∃ d, t = readKey d s
  | .switchMemory => t = publish .switchMemory s
  | .skipIfEqual _ _ | .skipIfNotEqual _ _ => t = s ∨ t = { s with pc := s.pc + 2#16 }
  | .setAddress aaa => t = { s with a := zextAddr aaa }
  | .setTimer tt => t = publish (.timerSet tt) s
  | .readTimer _ => ∃ d, t = s.setReg d s.t
  | .convertToBase10 _ =>
    s.m = false ∧ (dataAddr s 0#16).toNat < Config.memSize ∧ (dataAddr s 1#16).toNat < Config.memSize ∧
      (dataAddr s 2#16).toNat < Config.memSize ∧
      ∃ h t' o, t = ((s.setRam (dataAddr s 0#16) h).setRam (dataAddr s 1#16) t').setRam (dataAddr s 2#16) o
  | .draw _ _ _ => ∃ x y v, v.toNat ≤ 127 ∧ t = publishAll [.drawPixel x y v, .refresh] s

/-- A skip's PC action on `s`. -/
theorem finish_skip (s : State) (c : Bool) :
    finish s (.ok { state := s, action := skipAction c }) = .next (if c then { s with pc := s.pc + 2#16 } else s) := by
  cases c <;> simp [skipAction]

/-- Everything `exec` can do. -/
theorem exec_cases (i : Instr) (s : State) :
    (∃ f, exec i s = .next (takeFatal f s)) ∨ (∃ t, exec i s = .next t ∧ Completes i s t) := by
  have key : ∀ r : Except FatalError Effects, exec i s = finish s r →
      (∀ e s', r = .ok e → applyAction e.action e.state = .ok s' → Completes i s (publishAll e.events s')) →
      (∃ f, exec i s = .next (takeFatal f s)) ∨ (∃ t, exec i s = .next t ∧ Completes i s t) := by
    intro r hx hc
    rcases finish_cases s r with ⟨f, hf⟩ | ⟨e, s', hr, ha, hf⟩
    · exact .inl ⟨f, hx.trans hf⟩
    · exact .inr ⟨_, hx.trans hf, hc e s' hr ha⟩
  cases i with
  | halt =>
    refine key (.ok { state := { s with haltPc := s.pc0 }, events := [.halt s.pc0] }) rfl ?_
    rintro e s' ⟨⟩ ⟨⟩
    rfl
  | store rX bb =>
    refine key _ rfl ?_
    intro e s' hr ha
    obtain ⟨d, -, hd⟩ := bind_eq_ok.1 hr
    cases hd; cases ha
    exact ⟨d, rfl⟩
  | add rX rY rZ =>
    refine key _ rfl ?_
    intro e s' hr ha
    obtain ⟨a, -, h1⟩ := bind_eq_ok.1 hr
    obtain ⟨b, -, h2⟩ := bind_eq_ok.1 h1
    obtain ⟨d, -, hd⟩ := bind_eq_ok.1 h2
    cases hd; cases ha
    exact ⟨d, addWrap a b, rfl⟩
  | sub rX rY rZ =>
    refine key _ rfl ?_
    intro e s' hr ha
    obtain ⟨a, -, h1⟩ := bind_eq_ok.1 hr
    obtain ⟨b, -, h2⟩ := bind_eq_ok.1 h1
    obtain ⟨d, -, hd⟩ := bind_eq_ok.1 h2
    cases hd; cases ha
    exact ⟨d, subClamp a b, rfl⟩
  | read rX =>
    refine key _ rfl ?_
    intro e s' hr ha
    obtain ⟨d, -, h1⟩ := bind_eq_ok.1 hr
    obtain ⟨v, -, hd⟩ := bind_eq_ok.1 h1
    cases hd; cases ha
    exact ⟨d, v, rfl⟩
  | write rX =>
    refine key _ rfl ?_
    intro e s' hr ha
    obtain ⟨v, -, h1⟩ := bind_eq_ok.1 hr
    obtain ⟨u, hu, hd⟩ := bind_eq_ok.1 h1
    obtain ⟨w, hw, hu'⟩ := bind_eq_ok.1 hu
    rw [dataAddr_zero] at hw hu'
    cases hd; cases ha; cases hu'
    exact ⟨(checkWrite_eq_ok.1 hw).1, (checkWrite_eq_ok.1 hw).2, v, rfl⟩
  | jump aaa =>
    refine key (.ok { state := s, action := .setPc aaa }) rfl ?_
    intro e s' hr ha
    cases hr
    obtain ⟨u, hu, hd⟩ := bind_eq_ok.1 ha
    cases hd
    exact ⟨require_eq_ok.1 hu, rfl⟩
  | readKeyboard rX =>
    refine key _ rfl ?_
    intro e s' hr ha
    obtain ⟨d, -, hd⟩ := bind_eq_ok.1 hr
    cases hd; cases ha
    exact ⟨d, rfl⟩
  | switchMemory =>
    refine key (.ok { state := s, events := [.switchMemory] }) rfl ?_
    rintro e s' ⟨⟩ ⟨⟩
    rfl
  | skipIfEqual rX rY =>
    refine key _ rfl ?_
    intro e s' hr ha
    obtain ⟨a, -, h1⟩ := bind_eq_ok.1 hr
    obtain ⟨b, -, hd⟩ := bind_eq_ok.1 h1
    cases hd
    cases hc : equalBytes a b <;> rw [hc] at ha <;> cases ha
    · exact .inl rfl
    · exact .inr rfl
  | skipIfNotEqual rX rY =>
    refine key _ rfl ?_
    intro e s' hr ha
    obtain ⟨a, -, h1⟩ := bind_eq_ok.1 hr
    obtain ⟨b, -, hd⟩ := bind_eq_ok.1 h1
    cases hd
    cases hc : equalBytes a b <;> rw [hc] at ha <;> cases ha
    · exact .inr rfl
    · exact .inl rfl
  | setAddress aaa =>
    refine key (.ok { state := { s with a := zextAddr aaa } }) rfl ?_
    rintro e s' ⟨⟩ ⟨⟩
    rfl
  | setTimer tt =>
    refine key (.ok { state := s, events := [.timerSet tt] }) rfl ?_
    rintro e s' ⟨⟩ ⟨⟩
    rfl
  | readTimer rX =>
    refine key _ rfl ?_
    intro e s' hr ha
    obtain ⟨d, -, hd⟩ := bind_eq_ok.1 hr
    cases hd; cases ha
    exact ⟨d, rfl⟩
  | convertToBase10 rX =>
    refine key _ rfl ?_
    intro e s' hr ha
    obtain ⟨v, -, h1⟩ := bind_eq_ok.1 hr
    obtain ⟨u0, hu0, h2⟩ := bind_eq_ok.1 h1
    obtain ⟨u1, hu1, h3⟩ := bind_eq_ok.1 h2
    obtain ⟨u2, hu2, hd⟩ := bind_eq_ok.1 h3
    cases hd; cases ha
    have c0 := checkWrite_eq_ok.1 hu0
    exact ⟨c0.1, c0.2, (checkWrite_eq_ok.1 hu1).2, (checkWrite_eq_ok.1 hu2).2, _, _, _, rfl⟩
  | convertToAscii rX rY =>
    refine key _ rfl ?_
    intro e s' hr ha
    obtain ⟨v, -, h1⟩ := bind_eq_ok.1 hr
    obtain ⟨d, -, h2⟩ := bind_eq_ok.1 h1
    obtain ⟨u, -, hd⟩ := bind_eq_ok.1 h2
    cases hd; cases ha
    exact ⟨d, _, rfl⟩
  | draw rX rY rZ =>
    refine key _ rfl ?_
    intro e s' hr ha
    obtain ⟨v, -, h1⟩ := bind_eq_ok.1 hr
    obtain ⟨xy, -, h2⟩ := bind_eq_ok.1 h1
    obtain ⟨u, hu, h3⟩ := bind_eq_ok.1 h2
    obtain ⟨c, -, hd⟩ := bind_eq_ok.1 h3
    cases hd; cases ha
    have hv : v.toNat ≤ 127 := (require_eq_ok.1 hu).resolve_left (by decide)
    exact ⟨c.1, c.2, v, hv, rfl⟩

/-- No instruction stops the machine: every one answers a next state (R89, R212). -/
theorem exec_next (i : Instr) (s : State) : ∃ t, exec i s = .next t := by
  rcases exec_cases i s with ⟨f, h⟩ | ⟨t, h, -⟩
  · exact ⟨_, h⟩
  · exact ⟨t, h⟩

/-- What READ_KEYBOARD leaves alone, whether it is answered or waits (R130). -/
theorem readKey_cases (d : RegIdx) (s : State) :
    (∃ k rest, s.schedule = .keyReply k :: rest ∧ readKey d s = { s.setReg d k with schedule := rest }) ∨
    readKey d s = { s with kbdWait := some d } := by
  rcases h : s.schedule with _ | ⟨q, rest⟩
  · exact .inr (by simp [readKey, h])
  · cases q with
    | keyReply k => exact .inl ⟨k, rest, rfl, by simp [readKey, h]⟩
    | instrTick | timerTick | command | subscribe | unsubscribe => exact .inr (by simp [readKey, h])

end Sys2Proof.Machine
end

