-- ==== Sys2Proof/Laws/Memory.lean ====
section
/-! SUPPORT. The two laws of a memory (what was written is read back, everything else is left alone), the canonical form
and that every operation keeps it, and that it is canonical: equal reads mean equal lists. -/

namespace Sys2Proof.Machine

@[simp] theorem Memory.read_nil (a : Nat) : Memory.read [] a = 0#8 := rfl

theorem Memory.read_cons (b : Nat) (v : Byte) (m : Memory) (a : Nat) :
    Memory.read ((b, v) :: m) a = if a = b then v else Memory.read m a := rfl

@[simp] theorem Memory.wfFrom_nil (lo : Nat) : Memory.wfFrom lo [] = true := rfl

theorem Memory.wfFrom_cons (lo b : Nat) (v : Byte) (m : Memory) :
    Memory.wfFrom lo ((b, v) :: m) = true ↔
      lo ≤ b ∧ b < Config.memSize ∧ v ≠ Memory.fill ∧ Memory.wfFrom (b + 1) m = true := by
  simp [Memory.wfFrom, and_assoc]

/-- A higher start is a weaker demand, read downwards. -/
theorem Memory.wfFrom_mono {lo lo' : Nat} (m : Memory) (h : lo ≤ lo') (hm : Memory.wfFrom lo' m = true) :
    Memory.wfFrom lo m = true := by
  cases m with
  | nil => rfl
  | cons c rest =>
    obtain ⟨b, v⟩ := c
    rw [Memory.wfFrom_cons] at hm ⊢
    exact ⟨h.trans hm.1, hm.2⟩

/-- Below its start a canonical memory reads as the fill. -/
theorem Memory.read_below {lo : Nat} (m : Memory) (hm : Memory.wfFrom lo m = true) {a : Nat} (ha : a < lo) :
    Memory.read m a = Memory.fill := by
  induction m generalizing lo with
  | nil => rfl
  | cons c rest ih =>
    obtain ⟨b, v⟩ := c
    rw [Memory.wfFrom_cons] at hm
    rw [Memory.read_cons, if_neg (by omega)]
    exact ih hm.2.2.2 (by omega)

/-- No cell lies at 4096 or above (R52). -/
theorem Memory.read_above {lo : Nat} (m : Memory) (hm : Memory.wfFrom lo m = true) {a : Nat}
    (ha : Config.memSize ≤ a) : Memory.read m a = Memory.fill := by
  induction m generalizing lo with
  | nil => rfl
  | cons c rest ih =>
    obtain ⟨b, v⟩ := c
    rw [Memory.wfFrom_cons] at hm
    rw [Memory.read_cons, if_neg (by omega)]
    exact ih hm.2.2.2

theorem Memory.read_putFirst {m : Memory} {a : Nat} (v : Byte) (hm : Memory.read m a = Memory.fill) (b : Nat) :
    Memory.read (Memory.putFirst a v m) b = if b = a then v else Memory.read m b := by
  unfold Memory.putFirst
  split
  · next h => split
              · next e => rw [e, hm, h]
              · rfl
  · rfl

theorem Memory.wfFrom_putFirst {lo a : Nat} {m : Memory} (v : Byte) (hlo : lo ≤ a) (ha : a < Config.memSize)
    (hm : Memory.wfFrom (a + 1) m = true) : Memory.wfFrom lo (Memory.putFirst a v m) = true := by
  unfold Memory.putFirst
  split
  · exact Memory.wfFrom_mono m (by omega) hm
  · next h => rw [Memory.wfFrom_cons]; exact ⟨hlo, ha, h, hm⟩

theorem Memory.read_writeFrom {lo : Nat} (m : Memory) (hm : Memory.wfFrom lo m = true) (a : Nat) (v : Byte) (b : Nat) :
    Memory.read (Memory.write m a v) b = if b = a then v else Memory.read m b := by
  induction m generalizing lo with
  | nil => exact Memory.read_putFirst v rfl b
  | cons c rest ih =>
    obtain ⟨k, w⟩ := c
    have hm' := (Memory.wfFrom_cons _ _ _ _).1 hm
    unfold Memory.write
    split
    · next h =>
      exact Memory.read_putFirst v
        (Memory.read_below _ ((Memory.wfFrom_cons _ _ _ _).2 ⟨le_refl k, hm'.2⟩) h) b
    · split
      · next h1 h2 =>
        subst h2
        rw [Memory.read_putFirst v (Memory.read_below _ hm'.2.2.2 (by omega)), Memory.read_cons]
        split <;> simp_all
      · next h1 h2 =>
        rw [Memory.read_cons, Memory.read_cons, ih hm'.2.2.2]
        split
        · next h => rw [if_neg (by omega)]
        · rfl

theorem Memory.wfFrom_write {lo : Nat} (m : Memory) (hm : Memory.wfFrom lo m = true) {a : Nat} (hlo : lo ≤ a)
    (ha : a < Config.memSize) (v : Byte) : Memory.wfFrom lo (Memory.write m a v) = true := by
  induction m generalizing lo with
  | nil => exact Memory.wfFrom_putFirst v hlo ha rfl
  | cons c rest ih =>
    obtain ⟨k, w⟩ := c
    have hm' := (Memory.wfFrom_cons _ _ _ _).1 hm
    unfold Memory.write
    split
    · exact Memory.wfFrom_putFirst v hlo ha ((Memory.wfFrom_cons _ _ _ _).2 ⟨by omega, hm'.2⟩)
    · split
      · next h1 h2 => subst h2; exact Memory.wfFrom_putFirst v hlo ha hm'.2.2.2
      · rw [Memory.wfFrom_cons]
        exact ⟨hm'.1, hm'.2.1, hm'.2.2.1, ih hm'.2.2.2 (by omega)⟩

/-- What a write changes, in a canonical memory: one cell and no other (R57, R63). -/
theorem Memory.read_write (m : Memory) (hm : m.wf = true) (a : Nat) (v : Byte) (b : Nat) :
    (m.write a v).read b = if b = a then v else m.read b :=
  Memory.read_writeFrom m hm a v b

/-- A write to one of the 4096 cells keeps the canonical form. -/
theorem Memory.wf_write (m : Memory) (hm : m.wf = true) {a : Nat} (ha : a < Config.memSize) (v : Byte) :
    (m.write a v).wf = true :=
  Memory.wfFrom_write m hm (Nat.zero_le a) ha v

theorem Memory.wfFrom_ofBytes (base : Nat) (bytes : List Byte) (h : base + bytes.length ≤ Config.memSize) :
    Memory.wfFrom base (Memory.ofBytes base bytes) = true := by
  induction bytes generalizing base with
  | nil => rfl
  | cons v rest ih =>
    simp only [List.length_cons] at h
    exact Memory.wfFrom_putFirst v (le_refl base) (by omega) (ih (base + 1) (by omega))

/-- The image of a `load` is in canonical form. -/
theorem Memory.wf_ofBytes (bytes : List Byte) (h : bytes.length ≤ Config.memSize) :
    (Memory.ofBytes 0 bytes).wf = true :=
  Memory.wfFrom_ofBytes 0 bytes (by omega)

theorem Memory.read_ofBytesFrom (base : Nat) (bytes : List Byte) (a : Nat) :
    (Memory.ofBytes base bytes).read a = if base ≤ a then bytes.getD (a - base) 0#8 else 0#8 := by
  induction bytes generalizing base a with
  | nil => simp [Memory.ofBytes]
  | cons v rest ih =>
    have hb : (Memory.ofBytes (base + 1) rest).read base = Memory.fill := by
      rw [ih, if_neg (by omega)]
      rfl
    rw [Memory.ofBytes, Memory.read_putFirst v hb, ih]
    rcases Nat.lt_trichotomy a base with h | h | h
    · rw [if_neg (by omega), if_neg (by omega), if_neg (by omega)]
    · subst h; simp
    · obtain ⟨k, rfl⟩ : ∃ k, a = base + 1 + k := ⟨a - (base + 1), by omega⟩
      rw [if_neg (by omega), if_pos (by omega), if_pos (by omega)]
      have e1 : base + 1 + k - (base + 1) = k := by omega
      have e2 : base + 1 + k - base = k + 1 := by omega
      simp [e1, e2]

/-- The image of a `load`: the bytes from address 0, then 0x00 (R252). -/
theorem Memory.read_ofBytes (bytes : List Byte) (a : Nat) : (Memory.ofBytes 0 bytes).read a = bytes.getD a 0#8 := by
  simpa using Memory.read_ofBytesFrom 0 bytes a

theorem Memory.extFrom {lo lo' : Nat} (m n : Memory) (hm : Memory.wfFrom lo m = true) (hn : Memory.wfFrom lo' n = true)
    (h : ∀ a, Memory.read m a = Memory.read n a) : m = n := by
  induction m generalizing n lo lo' with
  | nil =>
    cases n with
    | nil => rfl
    | cons c rest =>
      obtain ⟨b, v⟩ := c
      have hn' := (Memory.wfFrom_cons _ _ _ _).1 hn
      have := h b
      rw [Memory.read_cons, if_pos rfl] at this
      exact absurd this.symm hn'.2.2.1
  | cons c rest ih =>
    obtain ⟨b, v⟩ := c
    have hm' := (Memory.wfFrom_cons _ _ _ _).1 hm
    cases n with
    | nil =>
      have := h b
      rw [Memory.read_cons, if_pos rfl] at this
      exact absurd this hm'.2.2.1
    | cons d rest' =>
      obtain ⟨b', v'⟩ := d
      have hn' := (Memory.wfFrom_cons _ _ _ _).1 hn
      have hbb : b = b' := by
        rcases Nat.lt_trichotomy b b' with hlt | heq | hlt
        · have := h b
          rw [Memory.read_cons, if_pos rfl,
            Memory.read_below ((b', v') :: rest') ((Memory.wfFrom_cons _ _ _ _).2 ⟨le_refl b', hn'.2⟩) hlt] at this
          exact absurd this hm'.2.2.1
        · exact heq
        · have := h b'
          rw [Memory.read_cons b' v', if_pos rfl,
            Memory.read_below ((b, v) :: rest) ((Memory.wfFrom_cons _ _ _ _).2 ⟨le_refl b, hm'.2⟩) hlt] at this
          exact absurd this.symm hn'.2.2.1
      subst hbb
      have hv : v = v' := by simpa [Memory.read_cons] using h b
      subst hv
      have : rest = rest' := by
        refine ih rest' hm'.2.2.2 hn'.2.2.2 fun a => ?_
        by_cases ha : a = b
        · subst ha
          rw [Memory.read_below rest hm'.2.2.2 (by omega), Memory.read_below rest' hn'.2.2.2 (by omega)]
        · simpa [Memory.read_cons, ha] using h a
      rw [this]

/-- The form is canonical: two memories in it that read alike are the same list. -/
theorem Memory.ext_of_wf (m n : Memory) (hm : m.wf = true) (hn : n.wf = true) (h : ∀ a, m.read a = n.read a) : m = n :=
  Memory.extFrom m n hm hn h

end Sys2Proof.Machine
end

