-- ==== Sys2Proof/Laws/PerInstr.lean ====
section
/-! SUPPORT. One fact per instruction as syntax: the top nibble of its word is its opcode (30_encoding.md R86). -/

namespace Sys2Proof

/-- The opcode of R86; HALT's word has the top nibble of STORE. -/
def Instr.opcode : Instr → Nibble
  | .halt => 0x0#4
  | .store _ _ => 0x0#4
  | .add _ _ _ => 0x1#4
  | .sub _ _ _ => 0x2#4
  | .read _ => 0x3#4
  | .write _ => 0x4#4
  | .jump _ => 0x5#4
  | .readKeyboard _ => 0x6#4
  | .switchMemory => 0x7#4
  | .skipIfEqual _ _ => 0x8#4
  | .skipIfNotEqual _ _ => 0x9#4
  | .setAddress _ => 0xA#4
  | .setTimer _ => 0xB#4
  | .readTimer _ => 0xC#4
  | .convertToBase10 _ => 0xD#4
  | .convertToAscii _ _ => 0xE#4
  | .draw _ _ _ => 0xF#4

namespace Laws.TopNibble

/-- The word of an instruction carries its opcode in bits 15:12. -/
def Statement (i : Instr) : Prop := (encode i).toNat / 4096 = i.opcode.toNat

theorem halt : Statement .halt := rfl

theorem store (rX : Nibble) (bb : Byte) : Statement (.store rX bb) := by
  simp only [Statement, encode, toNat_packLowByte, Instr.opcode]; omega

theorem add (rX rY rZ : Nibble) : Statement (.add rX rY rZ) := by
  simp only [Statement, encode, toNat_packNibbles, Instr.opcode]; omega

theorem sub (rX rY rZ : Nibble) : Statement (.sub rX rY rZ) := by
  simp only [Statement, encode, toNat_packNibbles, Instr.opcode]; omega

theorem read (rX : Nibble) : Statement (.read rX) := by
  simp only [Statement, encode, toNat_packLowByte, Instr.opcode]; omega

theorem write (rX : Nibble) : Statement (.write rX) := by
  simp only [Statement, encode, toNat_packLowByte, Instr.opcode]; omega

theorem jump (aaa : Addr12) : Statement (.jump aaa) := by
  simp only [Statement, encode, toNat_packAddr, Instr.opcode]; omega

theorem readKeyboard (rX : Nibble) : Statement (.readKeyboard rX) := by
  simp only [Statement, encode, toNat_packLowByte, Instr.opcode]; omega

theorem switchMemory : Statement .switchMemory := rfl

theorem skipIfEqual (rX rY : Nibble) : Statement (.skipIfEqual rX rY) := by
  simp only [Statement, encode, toNat_packNibbles, Instr.opcode]; omega

theorem skipIfNotEqual (rX rY : Nibble) : Statement (.skipIfNotEqual rX rY) := by
  simp only [Statement, encode, toNat_packNibbles, Instr.opcode]; omega

theorem setAddress (aaa : Addr12) : Statement (.setAddress aaa) := by
  simp only [Statement, encode, toNat_packAddr, Instr.opcode]; omega

theorem setTimer (tt : Byte) : Statement (.setTimer tt) := by
  simp only [Statement, encode, Machine.params, toNat_packMiddleByte, Instr.opcode]; omega

theorem readTimer (rX : Nibble) : Statement (.readTimer rX) := by
  simp only [Statement, encode, toNat_packLowByte, Instr.opcode]; omega

theorem convertToBase10 (rX : Nibble) : Statement (.convertToBase10 rX) := by
  simp only [Statement, encode, toNat_packLowByte, Instr.opcode]; omega

theorem convertToAscii (rX rY : Nibble) : Statement (.convertToAscii rX rY) := by
  simp only [Statement, encode, toNat_packNibbles, Instr.opcode]; omega

theorem draw (rX rY rZ : Nibble) : Statement (.draw rX rY rZ) := by
  simp only [Statement, encode, toNat_packNibbles, Instr.opcode]; omega

end Laws.TopNibble

end Sys2Proof
end

