-- ==== Sys2Proof/Laws/Step.lean ====
section
/-! SUPPORT. What one step can do, once: nothing (no input left), a suppressed instruction tick, a cycle that faults at its
fetch, a cycle that is `exec` of the decoded word, or one of the other inputs. -/

namespace Sys2Proof.Machine

@[simp] theorem step_nil (s : State) (h : s.schedule = []) : step s = .next s := by
  simp [step, performNext, h]

theorem step_cons (s : State) {q : Stimulus} {rest : List Stimulus} (h : s.schedule = q :: rest) :
    step s = perform q { s with schedule := rest } := by
  simp [step, performNext, h]

/-- Every word decodes (R85, R89). -/
theorem decodeWord_some (w : Word) : ∃ i, decodeWord w = some i := by
  by_cases h : w = 0x0000#16
  · exact ⟨.halt, by rw [h, decodeWord_zero]⟩
  · exact ⟨_, decodeWord_nonzero w h⟩

theorem cycleStarts_iff (s : State) :
    s.cycleStarts = true ↔ s.ls = .running ∧ s.stopReq = false ∧ s.kbdWait = none := by
  simp [State.cycleStarts, State.clocksRun, and_assoc]

/-- A cycle inside ROM is `exec` of the fetched word, after the advance (R142 to R146). -/
theorem cycle_in (s : State) {i : Instr} (h : s.pc.toNat + 1 < Config.memSize)
    (hi : decodeWord (wordOfBytes (s.rom.read s.pc.toNat) (s.rom.read (s.pc.toNat + 1))) = some i) :
    cycle s = exec i s.advance := by
  simp [cycle, fetch_in s h, hi]

/-- What an instruction tick can do. -/
theorem instructionTick_cases (s : State) :
    (s.cycleStarts = false ∧ instructionTick s = .next s) ∨
    (s.cycleStarts = true ∧ Config.memSize ≤ s.pc.toNat + 1 ∧
      ∃ a, instructionTick s = .next (takeFatal (.addressOutOfRange a) s)) ∨
    (s.cycleStarts = true ∧ s.pc.toNat + 1 < Config.memSize ∧
      ∃ i, decodeWord (wordOfBytes (s.rom.read s.pc.toNat) (s.rom.read (s.pc.toNat + 1))) = some i ∧
        instructionTick s = exec i s.advance) := by
  unfold instructionTick
  by_cases hc : s.cycleStarts = true
  · rw [if_pos hc]
    by_cases hp : s.pc.toNat + 1 < Config.memSize
    · obtain ⟨i, hi⟩ := decodeWord_some (wordOfBytes (s.rom.read s.pc.toNat) (s.rom.read (s.pc.toNat + 1)))
      exact .inr (.inr ⟨hc, hp, i, hi, cycle_in s hp hi⟩)
    · refine .inr (.inl ⟨hc, by omega, ?_⟩)
      by_cases h1 : s.pc.toNat < Config.memSize
      · exact ⟨s.pc + 1#16, by simp [cycle, fetch, require_pos _ h1, require_neg _ hp]⟩
      · exact ⟨s.pc, by simp [cycle, fetch_out s (Nat.not_lt.1 h1)]⟩
  · rw [if_neg hc]
    exact .inl ⟨by simpa using hc, rfl⟩

/-- Every input answers a next state. -/
theorem perform_next (q : Stimulus) (s : State) : ∃ t, perform q s = .next t := by
  cases q with
  | instrTick =>
    rcases instructionTick_cases s with ⟨-, h⟩ | ⟨-, -, a, h⟩ | ⟨-, -, i, -, h⟩
    · exact ⟨_, h⟩
    · exact ⟨_, h⟩
    · obtain ⟨t, ht⟩ := exec_next i s.advance
      exact ⟨t, h.trans ht⟩
  | timerTick | command | keyReply | subscribe | unsubscribe => exact ⟨_, rfl⟩

/-- What a timer tick can do (R183). -/
theorem timerTick_cases (s : State) :
    (timerTick s = s ∧ (s.clocksRun = false ∨ s.t.toNat = 0)) ∨
    (s.clocksRun = true ∧ 0 < s.t.toNat ∧
      timerTick s = { s with t := s.t - 1#8, trace := s.trace ++ [⟨.timerTick (s.t - 1#8), s.extSubs⟩] }) := by
  unfold timerTick
  by_cases hc : s.clocksRun = true
  · by_cases ht : 0 < s.t.toNat
    · exact .inr ⟨hc, ht, by simp [hc, ht]⟩
    · exact .inl ⟨by simp [ht], .inr (by omega)⟩
  · exact .inl ⟨by simp [hc], .inl (by simpa using hc)⟩

/-! ### Runs of the host's interface -/

@[simp] theorem core_run_zero (s : State) : Sys2Proof.core.run 0 s = .next s := rfl

theorem Core_run_of_step (M : Host.Core) (k : Nat) (s t : M.State) (h : M.step s = .next t) :
    M.run (k + 1) s = M.run k t := by
  simp only [Host.Core.run, h]

/-- A run peeled by its first step. -/
theorem core_run_of_step (k : Nat) {s t : State} (h : step s = .next t) :
    Sys2Proof.core.run (k + 1) s = Sys2Proof.core.run k t :=
  Core_run_of_step Sys2Proof.core k s t h

end Sys2Proof.Machine
end

