-- ==== Sys2Proof/Laws/Shape.lean ====
section
/-! SUPPORT. What a completed instruction leaves alone, and everything one step can do as one elimination rule. -/

namespace Sys2Proof.Machine

/-- What an instruction that raised nothing can have done to each part of the state: ROM, the subscriber set and the reply
never change; the lifecycle only by HALT, `A` by SET_ADDRESS, `T` by SET_TIMER, `M` by SWITCH_MEMORY, RAM by the two
storing instructions, `pc` by a skip or an even jump (10_state.md R43). -/
theorem completes_frame {i : Instr} {s t : State} (h : Completes i s t) :
    (t.rom = s.rom ∧ t.extSubs = s.extSubs ∧ t.reply = s.reply) ∧
    (i ≠ .halt → t.ls = s.ls ∧ t.cause = s.cause ∧ t.stopReq = s.stopReq ∧ t.haltPc = s.haltPc) ∧
    (t.a ≠ s.a → ∃ aaa, i = (.setAddress aaa) ∧ t.a = zextAddr aaa) ∧ (t.t ≠ s.t → ∃ tt, i = (.setTimer tt)) ∧
    (t.m ≠ s.m → i = .switchMemory) ∧ (t.ram ≠ s.ram → ∃ rX, i = (.write rX) ∨ i = (.convertToBase10 rX)) ∧
    (i = .halt → t.ls = .halted ∧ t.cause = .cleanHalt ∧ t.stopReq = true ∧ t.haltPc = s.pc0 ∧ t.pc = s.pc ∧
      t.trace = s.trace ++ [⟨.halt s.pc0, s.extSubs⟩] ∧ t.kbdWait = s.kbdWait) ∧
    (t.pc = s.pc ∨ t.pc = s.pc + 2#16 ∨ ∃ aaa : Addr12, aaa.toNat % 2 = 0 ∧ t.pc = aaa.setWidth 16) := by
  cases i with
  | halt => cases h; simp
  | store | readTimer => obtain ⟨d, rfl⟩ := h; simp
  | add | sub | read | convertToAscii => obtain ⟨d, v, rfl⟩ := h; simp
  | write => obtain ⟨_, _, v, rfl⟩ := h; simp
  | jump aaa => obtain ⟨e, rfl⟩ := h; simp; exact .inr (.inr ⟨aaa, e, rfl⟩)
  | readKeyboard =>
    obtain ⟨d, rfl⟩ := h
    rcases readKey_cases d s with ⟨k, rest, _, h2⟩ | h2 <;> rw [h2] <;> simp
  | switchMemory => cases h; simp
  | skipIfEqual | skipIfNotEqual => rcases h with rfl | rfl <;> simp
  | setAddress => cases h; simp
  | setTimer => cases h; simp
  | convertToBase10 => obtain ⟨_, _, _, _, a, b, c, rfl⟩ := h; simp
  | draw => obtain ⟨x, y, v, _, rfl⟩ := h; simp

/-- `t` has published `ps` more than `s`, each mirrored on the sink, none of them a drawn value above 127. -/
def Publishes (s t : State) (ps : List Publication) : Prop :=
  t.trace = s.trace ++ ps ∧ t.sinkCalls = s.sinkCalls ++ ps.flatMap (fun p => sinkCallsOf p.event) ∧
    ∀ p ∈ ps, p.event.drawsNonAscii = false

theorem publishes_nil {s t : State} (h : t.trace = s.trace) (h' : t.sinkCalls = s.sinkCalls) : Publishes s t [] :=
  ⟨by simp [h], by simp [h'], by simp⟩

/-- What a completed instruction publishes (R149, R161, R175): a `Halt` event only by HALT. -/
theorem completes_publishes {i : Instr} {s t : State} (h : Completes i s t) :
    ∃ ps, Publishes s t ps ∧ (i ≠ .halt → ∀ p ∈ ps, p.event.isHalt = false) := by
  have quiet : t.trace = s.trace → t.sinkCalls = s.sinkCalls →
      ∃ ps, Publishes s t ps ∧ (i ≠ .halt → ∀ p ∈ ps, p.event.isHalt = false) :=
    fun h h' => ⟨[], publishes_nil h h', by simp⟩
  cases i with
  | halt =>
    cases h
    exact ⟨[⟨.halt s.pc0, s.extSubs⟩], ⟨by simp, by simp [sinkCallsOf], by simp [Event.drawsNonAscii]⟩, by simp⟩
  | store | readTimer => obtain ⟨d, rfl⟩ := h; exact quiet rfl rfl
  | add | sub | read | convertToAscii => obtain ⟨d, v, rfl⟩ := h; exact quiet rfl rfl
  | write => obtain ⟨-, -, v, rfl⟩ := h; exact quiet rfl rfl
  | jump => obtain ⟨-, rfl⟩ := h; exact quiet rfl rfl
  | readKeyboard =>
    obtain ⟨d, rfl⟩ := h
    rcases readKey_cases d s with ⟨k, rest, -, h2⟩ | h2 <;> rw [h2] at quiet ⊢ <;> exact quiet rfl rfl
  | switchMemory =>
    cases h
    exact ⟨[⟨.switchMemory, s.extSubs⟩], ⟨by simp, by simp [sinkCallsOf], by simp [Event.drawsNonAscii]⟩,
      by simp [Event.isHalt]⟩
  | skipIfEqual | skipIfNotEqual => rcases h with rfl | rfl <;> exact quiet rfl rfl
  | setAddress => cases h; exact quiet rfl rfl
  | setTimer tt =>
    cases h
    exact ⟨[⟨.timerSet tt, s.extSubs⟩], ⟨by simp, by simp [sinkCallsOf], by simp [Event.drawsNonAscii]⟩,
      by simp [Event.isHalt]⟩
  | convertToBase10 => obtain ⟨-, -, -, -, a, b, c, rfl⟩ := h; exact quiet rfl rfl
  | draw =>
    obtain ⟨x, y, v, hv, rfl⟩ := h
    exact ⟨[⟨.drawPixel x y v, s.extSubs⟩, ⟨.refresh, s.extSubs⟩],
      ⟨by simp, by simp [sinkCallsOf], by simp [Event.drawsNonAscii]; omega⟩, by simp [Event.isHalt]⟩

/-- A completed instruction keeps RAM canonical. -/
theorem completes_ram_wf {i : Instr} {s t : State} (h : Completes i s t) (w : s.ram.wf = true) : t.ram.wf = true := by
  by_cases hr : t.ram = s.ram
  · rw [hr]; exact w
  · obtain ⟨rX, rfl | rfl⟩ := (completes_frame h).2.2.2.2.2.1 hr
    · obtain ⟨-, ha, v, rfl⟩ := h
      exact Memory.wf_write _ w ha _
    · obtain ⟨-, h0, h1, h2, a, b, c, rfl⟩ := h
      exact Memory.wf_write _ (Memory.wf_write _ (Memory.wf_write _ w h0 _) h1 _) h2 _

/-- Everything one step can do, as an elimination rule: a property of the next state follows from one case per kind of
step. Invariants cite this and never unfold `step`. -/
theorem step_elim {s t : State} (h : step s = .next t) (P : State → Prop)
    (same : ∀ l, P { s with schedule := l })
    (fatalFetch : ∀ l a, s.ls = .running → P (takeFatal (.addressOutOfRange a) { s with schedule := l }))
    (fatal : ∀ l f, s.ls = .running → s.pc.toNat + 1 < 4096 → P (takeFatal f { s with schedule := l, pc := s.pc + 2#16 }))
    (run : ∀ l i u, s.ls = .running → s.pc.toNat + 1 < 4096 →
      decodeWord (wordOfBytes (s.rom.read s.pc.toNat) (s.rom.read (s.pc.toNat + 1))) = some i →
      Completes i { s with schedule := l, pc := s.pc + 2#16 } u → P u)
    (tick : ∀ l, s.ls = .running → s.stopReq = false → 0 < s.t.toNat →
      P { s with schedule := l, t := s.t - 1#8, trace := s.trace ++ [⟨.timerTick (s.t - 1#8), s.extSubs⟩] })
    (key : ∀ l (d : RegIdx) k, P { s with schedule := l, x := s.x.set d k, kbdWait := none })
    (subs : ∀ l n, P { s with schedule := l, extSubs := insertSubscriber n s.extSubs })
    (unsub : ∀ l n, P { s with schedule := l, extSubs := s.extSubs.filter (fun k => k != n) })
    (rep : ∀ l r, P { s with schedule := l, reply := r })
    (load : ∀ l b, (s.ls = .uninitialized ∨ s.ls = .halted) → b.length ≤ 3584 →
      P { loadImage b { s with schedule := l } with reply := some .ok })
    (shut : ∀ l, s.ls ≠ .uninitialized → s.ls ≠ .halted →
      P { s with schedule := l, ls := .halted, cause := .shutdown, stopReq := true, reply := some .ok })
    (move : ∀ l m,
      (s.ls = .ready ∧ m = Lifecycle.running) ∨ (s.ls = .running ∧ m = .paused) ∨ (s.ls = .paused ∧ m = .running) →
      P { s with schedule := l, ls := m, reply := some .ok }) :
    P t := by
  rcases hs : s.schedule with _ | ⟨q, rest⟩
  · rw [step_nil s hs] at h; cases h; have := same s.schedule; simpa using this
  rw [step_cons s hs] at h
  cases q with
  | instrTick =>
    rcases instructionTick_cases { s with schedule := rest } with ⟨_, h1⟩ | ⟨hc, hp, a, h1⟩ | ⟨hc, hp, i, hi, h1⟩
    · rw [perform, h1] at h; cases h; exact same _
    · rw [perform, h1] at h; cases h
      exact fatalFetch _ _ ((cycleStarts_iff _).1 hc).1
    · rw [perform, h1] at h
      have hl := ((cycleStarts_iff _).1 hc).1
      rcases exec_cases i (State.advance { s with schedule := rest }) with ⟨f', hh⟩ | ⟨t', hh, hC⟩
      · rw [hh] at h; cases h; exact fatal _ _ hl hp
      · rw [hh] at h; cases h; exact run _ _ _ hl hp hi hC
  | timerTick =>
    rcases timerTick_cases { s with schedule := rest } with ⟨h1, _⟩ | ⟨h2, h3, h1⟩ <;> rw [perform, h1] at h <;> cases h
    · exact same _
    · simp [State.clocksRun] at h2; exact tick _ h2.1 h2.2 h3
  | command c =>
    simp only [perform, hostCommand] at h
    split at h
    · rename_i hh
      cases c <;> simp [acceptCommand] at h
      · split at h <;> subst h
        · refine load _ _ ?_ ‹_›
          simpa [Command.legalFrom] using hh
        · exact rep _ _
      · subst h; exact move _ _ (.inl ⟨by simpa [Command.legalFrom] using hh, rfl⟩)
      · subst h; exact move _ _ (.inr (.inl ⟨by simpa [Command.legalFrom] using hh, rfl⟩))
      · subst h; exact move _ _ (.inr (.inr ⟨by simpa [Command.legalFrom] using hh, rfl⟩))
      · subst h; refine shut _ ?_ ?_ <;> intro e <;> simp [Command.legalFrom, e] at hh
    · cases h; exact rep _ _
  | keyReply k =>
    simp [perform, keyReply] at h
    split at h <;> subst h
    · exact key _ _ _
    · exact same _
  | subscribe r =>
    cases r <;> (simp [perform, subscribe] at h; subst h)
    iterate 3 exact same _
    exact subs _ _
  | unsubscribe r =>
    cases r <;> (simp [perform, unsubscribe] at h; subst h)
    iterate 3 exact same _
    exact unsub _ _

end Sys2Proof.Machine
end

