-- ==== Sys2Proof/Tests/Slice0.lean ====
section
/-! SUPPORT. The model's own tests. Expected results are the vectors of 95_test_vectors.md (the V and S numbers), which
that file derives from the rules, not from a run; none is a statement for the provers. The `witness_` theorems show that
the hypotheses of an obligation can be met together, one clause at a time. -/

namespace Sys2Proof.Tests

open Sys2Proof Sys2Proof.Machine

/-! ### Syntax: what the checks refuse -/

theorem test_store_zero_to_r0_is_ill_formed : Instr.wellFormed (.store 0#4 0x00#8) = false := by decide

theorem test_neighbours_are_well_formed :
    Instr.wellFormed (.store 0#4 0x01#8) = true ∧ Instr.wellFormed (.store 1#4 0x00#8) = true := by decide

theorem test_register_field_8_is_not_executable :
    Instr.executable (.add 0#4 8#4 0#4) = false ∧ Instr.executable (.read 8#4) = false ∧
      Instr.executable (.skipIfEqual 0#4 15#4) = false ∧ Instr.executable (.read 7#4) = true := by decide

theorem test_odd_jump_is_not_executable :
    Instr.executable (.jump 0x007#12) = false ∧ Instr.executable (.jump 0xFFE#12) = true := by decide

theorem test_draw_coordinate_8_is_not_executable :
    Instr.executable (.draw 7#4 8#4 0#4) = false ∧ Instr.executable (.draw 7#4 0#4 8#4) = false ∧
      Instr.executable (.draw 7#4 7#4 7#4) = true := by decide

/-! ### Decoding: the words of 95_test_vectors.md 2.1, the bits written out -/

theorem test_decode_halt : decodeWord 0b0000000000000000#16 = some .halt := by decide

theorem test_decode_store : decodeWord 0b0000000000000001#16 = some (.store 0#4 0x01#8) ∧
    decodeWord 0b0000111100000000#16 = some (.store 15#4 0x00#8) := by decide

theorem test_decode_add : decodeWord 0b0001001000110100#16 = some (.add 2#4 3#4 4#4) := by decide

theorem test_decode_sub : decodeWord 0b0010111111111111#16 = some (.sub 15#4 15#4 15#4) := by decide

theorem test_decode_read : decodeWord 0b0011000010101011#16 = some (.read 0#4) := by decide

theorem test_decode_write : decodeWord 0b0100001000000000#16 = some (.write 2#4) := by decide

theorem test_decode_jump : decodeWord 0b0101101010111100#16 = some (.jump 0xABC#12) := by decide

theorem test_decode_readKeyboard : decodeWord 0b0110000100000000#16 = some (.readKeyboard 1#4) := by decide

theorem test_decode_switchMemory : decodeWord 0b0111111111111111#16 = some .switchMemory := by decide

theorem test_decode_skipIfEqual : decodeWord 0b1000000100100000#16 = some (.skipIfEqual 1#4 2#4) := by decide

theorem test_decode_skipIfNotEqual : decodeWord 0b1001000100101111#16 = some (.skipIfNotEqual 1#4 2#4) := by decide

theorem test_decode_setAddress : decodeWord 0b1010000100000000#16 = some (.setAddress 0x100#12) := by decide

theorem test_decode_setTimer : decodeWord 0b1011000100100011#16 = some (.setTimer 0x12#8) ∧
    decodeWord 0b1011000000000101#16 = some (.setTimer 0x00#8) := by decide

theorem test_decode_readTimer : decodeWord 0b1100001100000000#16 = some (.readTimer 3#4) := by decide

theorem test_decode_convertToBase10 : decodeWord 0b1101000000000000#16 = some (.convertToBase10 0#4) := by decide

theorem test_decode_convertToAscii : decodeWord 0b1110000100100000#16 = some (.convertToAscii 1#4 2#4) := by decide

theorem test_decode_draw : decodeWord 0b1111011110001001#16 = some (.draw 7#4 8#4 9#4) := by decide

/-- 2.2: the byte at the lower address is the high byte. -/
theorem test_decode_bytes_big_endian :
    decode [0x12#8, 0x34#8, 0xFF#8] = .ok (.add 2#4 3#4 4#4, [0xFF#8]) ∧ decode [0x12#8] = .error .truncated := by decide

theorem test_table_word : decodeTableWord 16 0xB050 = some (.setTimer 0x05#8) := by decide

/-! ### One step each -/

/-- After `load` of an empty image and `start`. -/
def ready : State := { State.reset with ls := .running }

/-- `ready` with two registers set. -/
def withRegs (i : RegIdx) (v : Byte) (j : RegIdx) (w : Byte) : State := (ready.setReg i v).setReg j w

/-- The state one step after the word `w` was put where `s` fetches next. -/
def after (s : State) (w : Nat) : State :=
  match step (s.withFetchWord 16 w) with
  | .next t => t
  | .fault f => nomatch f
  | .refused _ => s

/-- V2 -/
theorem test_halt_at_top : (after { ready with pc := 0x0FFE#16 } 0x0000).haltPc = 0x0FFE#16 ∧
    (after { ready with pc := 0x0FFE#16 } 0x0000).pc = 0x1000#16 ∧
    (after { ready with pc := 0x0FFE#16 } 0x0000).cause = .cleanHalt := by decide

/-- V1 -/
theorem test_halt_trace : (after ready 0x0000).trace = [⟨.halt 0#16, []⟩] ∧ (after ready 0x0000).ls = .halted := by decide

/-- V3 -/
theorem test_store : (after ready 0x03FF).reg 3 = 0xFF#8 ∧ (after ready 0x03FF).pc = 2#16 := by decide

/-- V5 -/
theorem test_store_bad_register : (after { ready with pc := 6#16 } 0x0800).cause = .fatal (.registerIndexRange 8#4) ∧
    (after { ready with pc := 6#16 } 0x0800).pc = 8#16 := by decide

/-- V6 -/
theorem test_add_wraps : (after (withRegs 0 255#8 1 10#8) 0x1012).reg 2 = 9#8 := by decide

/-- V10: the source is also the destination. -/
theorem test_add_same_register : (after (withRegs 1 0x81#8 1 0x81#8) 0x1111).reg 1 = 0x02#8 := by decide

/-- V15 -/
theorem test_sub_clamps : (after (withRegs 0 5#8 1 10#8) 0x2012).reg 2 = 0#8 := by decide

/-- V16: the order of the operands. -/
theorem test_sub_order : (after (withRegs 0 10#8 1 5#8) 0x2012).reg 2 = 5#8 := by decide

/-- V31 -/
theorem test_read_ram : (after { ready with a := 0x100#16, ram := [(0x100, 0x29#8)] } 0x3500).reg 5 = 0x29#8 := by decide

/-- V32 -/
theorem test_read_rom :
    (after { ready with a := 0x101#16, m := true, rom := [(0x101, 0xEA#8)] } 0x3400).reg 4 = 0xEA#8 := by decide

/-- V35 -/
theorem test_write_highest_cell :
    (after { withRegs 0 0x77#8 0 0x77#8 with a := 0xFFF#16 } 0x4000).ram = [(0xFFF, 0x77#8)] := by decide

/-- V37: the bank is tested before the range. -/
theorem test_write_rom :
    (after { ready with a := 0x1000#16, m := true } 0x4000).cause = .fatal (.romWrite 0x1000#16) := by decide

/-- V60 -/
theorem test_jump : (after { ready with pc := 0x00C#16 } 0x5006).pc = 0x006#16 := by decide

/-- V64 -/
theorem test_jump_odd : (after ready 0x5007).cause = .fatal (.oddJumpTarget 0x007#12) ∧
    (after ready 0x5007).pc = 2#16 := by decide

/-- V80: the source answers at once. -/
theorem test_readKeyboard : (after { ready with schedule := [.keyReply 0x3C#8] } 0x6200).reg 2 = 0x3C#8 ∧
    (after { ready with schedule := [.keyReply 0x3C#8] } 0x6200).kbdWait = none := by decide

/-- V83: it does not answer; the timer goes on. -/
theorem test_readKeyboard_waits : (after ready 0x6000).kbdWait = some 0 ∧ (after ready 0x6000).ls = .running ∧
    (timerTick { after ready 0x6000 with t := 5#8 }).t = 4#8 := by decide

/-- V38 -/
theorem test_switchMemory : (after ready 0x7000).m = true ∧ (after ready 0x7000).trace = [⟨.switchMemory, []⟩] := by decide

/-- V66, V67 -/
theorem test_skipIfEqual : (after { ready with pc := 0x00A#16 } 0x8020).pc = 0x00E#16 ∧
    (after { withRegs 0 1#8 2 0#8 with pc := 0x00A#16 } 0x8020).pc = 0x00C#16 := by decide

/-- V70, V71 -/
theorem test_skipIfNotEqual : (after { withRegs 1 5#8 2 7#8 with pc := 0x010#16 } 0x9120).pc = 0x014#16 ∧
    (after { withRegs 1 5#8 2 5#8 with pc := 0x010#16 } 0x9120).pc = 0x012#16 := by decide

/-- V41 -/
theorem test_setAddress : (after ready 0xAFFF).a = 0x0FFF#16 := by decide

/-- V85 -/
theorem test_setTimer : (after ready 0xB050).t = 5#8 ∧ (after ready 0xB050).trace = [⟨.timerSet 5#8, []⟩] := by decide

/-- V89 -/
theorem test_readTimer : (after { ready with t := 7#8 } 0xC300).reg 3 = 7#8 ∧
    (after { ready with t := 7#8 } 0xC300).t = 7#8 := by decide

/-- V51 -/
theorem test_convertToBase10 : (after { withRegs 0 123#8 0 123#8 with a := 4093#16 } 0xD000).ram =
    [(4093, 1#8), (4094, 2#8), (4095, 3#8)] := by decide

/-- V52: no partial write. -/
theorem test_convertToBase10_out_of_range :
    (after { withRegs 0 123#8 0 123#8 with a := 4094#16 } 0xD000).cause = .fatal (.addressOutOfRange 4096#16) ∧
    (after { withRegs 0 123#8 0 123#8 with a := 4094#16 } 0xD000).ram = [] := by decide

/-- V91, at the last digit and the first letter. -/
theorem test_convertToAscii : (after (withRegs 1 9#8 1 9#8) 0xE120).reg 2 = 0x39#8 ∧
    (after (withRegs 1 10#8 1 10#8) 0xE120).reg 2 = 0x41#8 := by decide

/-- V92 -/
theorem test_convertToAscii_range : (after (withRegs 1 0x10#8 2 0x55#8) 0xE120).cause = .fatal (.asciiRange 0x10#8) ∧
    (after (withRegs 1 0x10#8 2 0x55#8) 0xE120).reg 2 = 0x55#8 := by decide

/-- V96 -/
theorem test_draw : (after (withRegs 2 0x32#8 2 0x32#8) 0xF234).sinkCalls = [.drawPixel 3 4 0x32#8, .refresh] ∧
    (after (withRegs 2 0x32#8 2 0x32#8) 0xF234).trace =
      [⟨.drawPixel 3 4 0x32#8, []⟩, ⟨.refresh, []⟩] := by decide

/-- V102: the value is tested before the coordinates. -/
theorem test_draw_value_first :
    (after (withRegs 7 200#8 7 200#8) 0xF789).cause = .fatal (.drawValueRange 200#8) := by decide

/-- The word runs as the first instruction after reset. -/
theorem test_withFetchWord_from_reset : (after State.reset 0x0105).reg 1 = 5#8 := by decide

/-! ### The other inputs -/

/-- V110, its third and fourth ticks -/
theorem test_timerTick : (timerTick { ready with t := 1#8 }).t = 0#8 ∧
    (timerTick { ready with t := 1#8 }).trace = [⟨.timerTick 0#8, []⟩] ∧ (timerTick ready).trace = [] := by decide

/-- V112 -/
theorem test_timerTick_paused : timerTick { ready with t := 5#8, ls := .paused } =
    { ready with t := 5#8, ls := .paused } := by decide

/-- V124, V127 -/
theorem test_commands :
    (hostCommand (.load [0x50#8]) { State.reset with ls := .ready }).reply =
      some (.lifecycleViolation .ready (.load [0x50#8])) ∧
    (hostCommand .pause ready).ls = .paused := by decide

/-- V133 -/
theorem test_reload : hostCommand (.load [0x50#8, 0x07#8])
      { withRegs 1 7#8 1 7#8 with
        ls := .halted, m := true, ram := [(5, 1#8)], stopReq := true, cause := .fatal (.romWrite 5#16) } =
    { State.reset with rom := [(0, 0x50#8), (1, 0x07#8)], ls := .ready, reply := some .ok } := by decide

/-- V141, V142: a receiver gets what is published while it is a member. -/
theorem test_subscribers :
    (publish .refresh (unsubscribe (.external 1) (publish .switchMemory (subscribe (.external 1) ready)))).trace =
      [⟨.switchMemory, [1]⟩, ⟨.refresh, []⟩] := by decide

/-- The codes of R211. -/
theorem test_cause_codes : Cause.code .none = 0 ∧ Cause.code (.fatal (.oddJumpTarget 1#12)) = 1 ∧
    Cause.code (.fatal .invalidOpcode) = 8 ∧ Cause.code .cleanHalt = 16 ∧ Cause.code .shutdown = 17 := by decide

/-! ### The hypotheses of the obligations can be met -/

/-- A state about to run the word `w` at address 0. -/
def about (w : Word) : State :=
  { ready with rom := Memory.ofBytes 0 [highByte w, lowByte w], schedule := [.instrTick] }

theorem witness_DecodeInvertsEncode :
    Instr.wellFormed (.store 0#4 0x01#8) = true ∧ Instr.wellFormed (.store 15#4 0x00#8) = true ∧
      Instr.wellFormed (.draw 15#4 15#4 15#4) = true ∧ Instr.wellFormed .halt = true := by decide

theorem witness_DecoderFollowsOpcodeMap :
    (0x0001#16 : Word) ≠ 0x0000#16 ∧ (0xFFFF#16 : Word) ≠ 0x0000#16 := by decide

/-- The word 0x30AB of 2.1 is the same instruction as 0x3000. -/
theorem witness_UnusedBitsAreIgnored :
    decodeWord 0x30AB#16 = some (.read 0#4) ∧ 0x3000#16 &&& 0xFF00#16 = 0x30AB#16 &&& 0xFF00#16 ∧
      decodeWord 0xB005#16 = some (.setTimer 0#8) ∧ 0xB00F#16 &&& 0xFFF0#16 = 0xB005#16 &&& 0xFFF0#16 := by decide

/-- Both ends of the range of STORE words. -/
theorem witness_HaltIsOneExactWord :
    0x0001 ≤ (0x0001#16 : Word).toNat ∧ (0x0001#16 : Word).toNat ≤ 0x0FFF ∧
      0x0001 ≤ (0x0FFF#16 : Word).toNat ∧ (0x0FFF#16 : Word).toNat ≤ 0x0FFF := by decide

/-- At the highest address, too. -/
theorem witness_StepRunsDecodedInstruction :
    (about 0x03FF#16).schedule = [.instrTick] ∧ (about 0x03FF#16).readyToRun ∧
      (about 0x03FF#16).nextInstr (.store 3#4 0xFF#8) ∧
      { about 0#16 with pc := 4094#16 }.readyToRun ∧ { about 0#16 with pc := 4094#16 }.nextInstr .halt := by
  unfold State.readyToRun State.nextInstr; decide

theorem witness_FetchReadsRomBigEndian :
    4096 ≤ (4096#16 : Word).toNat ∧ (4095#16 : Word).toNat = 4095 ∧ (4094#16 : Word).toNat < 4095 := by decide

theorem witness_FetchFaultKeepsPc :
    let s : State := { about 0#16 with pc := 4096#16 }
    s.schedule = .instrTick :: [] ∧ s.ls = .running ∧ s.stopReq = false ∧ s.kbdWait = none ∧ 4096 ≤ s.pc.toNat := by decide

theorem witness_SuppressedTicksDoNothing :
    { about 0#16 with ls := .paused }.schedule = .instrTick :: [] ∧ { about 0#16 with ls := .paused }.ls ≠ .running ∧
      { State.reset with schedule := [.timerTick] }.schedule = .timerTick :: [] ∧ State.reset.ls ≠ .running := by decide

theorem witness_TimerTickCountsDown :
    let s : State := { ready with t := 1#8, schedule := [.timerTick] }
    s.schedule = .timerTick :: [] ∧ s.ls = .running ∧ s.stopReq = false ∧ 0 < s.t.toNat ∧
      { s with t := 0#8 }.t.toNat = 0 ∧ { s with ls := .paused }.ls ≠ .running := by decide

/-- More ticks than `T` counts. -/
theorem witness_TimerRunReachesZeroAndStays :
    let s : State := { ready with t := 2#8, schedule := [.timerTick, .timerTick, .timerTick, .instrTick] }
    s.schedule = List.replicate 3 .timerTick ++ [.instrTick] ∧ s.ls = .running ∧ s.stopReq = false := by decide

theorem witness_HaltEndsTheRun :
    (about 0#16).schedule = .instrTick :: [] ∧ (about 0#16).readyToRun ∧
      (about 0#16).rom.read (about 0#16).pc.toNat = 0x00#8 ∧ (about 0#16).rom.read ((about 0#16).pc.toNat + 1) = 0x00#8 := by
  unfold State.readyToRun; decide

theorem witness_StoreWritesImmediate :
    (1#4 ≠ 0#4 ∨ 0#8 ≠ 0#8) ∧ (0#4 ≠ 0#4 ∨ 1#8 ≠ 0#8) ∧ 8 ≤ (8#4 : Nibble).toNat ∧ (7#4 : Nibble).toNat = (7 : RegIdx) := by decide

/-- One field of 8, the others at most 7, in each place; all three in range. -/
theorem witness_AddWrapsModulo256 :
    8 ≤ (8#4 : Nibble).toNat ∧ (7#4 : Nibble).toNat < 8 ∧ (7#4 : Nibble).toNat = (7 : RegIdx) := by decide

/-- As for ADD. -/
theorem witness_SubClampsAtZero :
    8 ≤ (8#4 : Nibble).toNat ∧ (7#4 : Nibble).toNat < 8 ∧ (7#4 : Nibble).toNat = (7 : RegIdx) := by decide

theorem witness_ReadLoadsFromSelectedBank :
    8 ≤ (8#4 : Nibble).toNat ∧ (7#4 : Nibble).toNat = (7 : RegIdx) ∧
      4096 ≤ { ready with a := 4096#16 }.a.toNat ∧ { ready with a := 4095#16 }.a.toNat < 4096 ∧ ready.m = false ∧
      { ready with m := true }.m = true := by decide

theorem witness_WriteStoresRegisterInRam :
    8 ≤ (8#4 : Nibble).toNat ∧ (7#4 : Nibble).toNat = (7 : RegIdx) ∧
      { ready with m := true }.m = true ∧ ready.m = false ∧ 4096 ≤ { ready with a := 4096#16 }.a.toNat ∧
      { ready with a := 4095#16 }.a.toNat < 4096 := by decide

/-- The four clauses at `A` = 4096, 4095, 4094, 4093 (V51 to V55). -/
theorem witness_Base10StoresThreeDigits :
    8 ≤ (8#4 : Nibble).toNat ∧ (7#4 : Nibble).toNat = (7 : RegIdx) ∧ { ready with m := true }.m = true ∧ ready.m = false ∧
      4096 ≤ (4096#16 : Word).toNat ∧ 4094 ≤ (4095#16 : Word).toNat ∧ (4095#16 : Word).toNat < 4096 ∧
      4094 ≤ (4094#16 : Word).toNat ∧ (4093#16 : Word).toNat < 4094 := by decide

theorem witness_Base10DigitsSpellTheValue :
    let s : State := { ready with a := 4093#16 }
    (7#4 : Nibble).toNat = (7 : RegIdx) ∧ s.ram.wf = true ∧ s.m = false ∧ s.a.toNat < 4094 := by decide

theorem witness_JumpSetsPcOrFaults :
    (0xFFE#12 : Addr12).toNat % 2 = 0 ∧ (0x000#12 : Addr12).toNat % 2 = 0 ∧ (0xFFF#12 : Addr12).toNat % 2 = 1 := by decide

theorem witness_SkipIfEqualSkipsOneWord :
    8 ≤ (8#4 : Nibble).toNat ∧ (7#4 : Nibble).toNat < 8 ∧ (7#4 : Nibble).toNat = (7 : RegIdx) ∧
      ready.reg 0 = ready.reg 7 ∧ (withRegs 0 0x80#8 1 0x00#8).reg 0 ≠ (withRegs 0 0x80#8 1 0x00#8).reg 1 := by decide

theorem witness_SkipIfNotEqualSkipsOneWord :
    8 ≤ (8#4 : Nibble).toNat ∧ (7#4 : Nibble).toNat < 8 ∧ (7#4 : Nibble).toNat = (7 : RegIdx) ∧
      ready.reg 0 = ready.reg 7 ∧ (withRegs 0 0x80#8 1 0x00#8).reg 0 ≠ (withRegs 0 0x80#8 1 0x00#8).reg 1 := by decide

theorem witness_ReadKeyboardTakesTheByteOrWaits :
    8 ≤ (8#4 : Nibble).toNat ∧ (7#4 : Nibble).toNat = (7 : RegIdx) ∧
      { ready with schedule := [.keyReply 0xFF#8] }.schedule = .keyReply 0xFF#8 :: [] ∧
      ∀ (k : Byte) (rest : List Stimulus), ready.schedule ≠ .keyReply k :: rest := by
  refine ⟨by decide, by decide, rfl, fun k rest h => ?_⟩
  cases h

theorem witness_KeyReplyCompletesTheWait :
    let s : State := { ready with kbdWait := some 7, t := 1#8, schedule := [.timerTick] }
    s.kbdWait = some 7 ∧ s.schedule = .timerTick :: [] ∧ s.ls = .running ∧ s.stopReq = false ∧ 0 < s.t.toNat ∧
      { s with schedule := [.instrTick] }.schedule = .instrTick :: [] ∧
      { s with schedule := [.keyReply 0#8], ls := .halted }.schedule = .keyReply 0#8 :: [] ∧
      { s with schedule := [.keyReply 0#8], kbdWait := none }.kbdWait = none := by decide

theorem witness_ReadTimerCopiesT :
    8 ≤ (8#4 : Nibble).toNat ∧ (7#4 : Nibble).toNat = (7 : RegIdx) := by decide

/-- The values 9, 10, 15 and 16. -/
theorem witness_ConvertToAsciiWritesTheDigit :
    8 ≤ (8#4 : Nibble).toNat ∧ (7#4 : Nibble).toNat < 8 ∧ (7#4 : Nibble).toNat = (7 : RegIdx) ∧
      (withRegs 7 9#8 0 9#8).reg 7 = 9#8 ∧ (9#8 : Byte).toNat ≤ 9 ∧ 9 < (10#8 : Byte).toNat ∧ (15#8 : Byte).toNat ≤ 15 ∧
      15 < (16#8 : Byte).toNat ∧ (withRegs 7 16#8 0 9#8).reg 7 = 16#8 := by decide

theorem witness_DrawEmitsPixelThenRefresh :
    8 ≤ (8#4 : Nibble).toNat ∧ (7#4 : Nibble).toNat = (7 : RegIdx) ∧ 127 < ((withRegs 7 128#8 0 0#8).reg 7).toNat ∧
      ((withRegs 7 127#8 0 0#8).reg 7).toNat ≤ 127 ∧ 7 < (8#4 : Nibble).toNat ∧ (7#4 : Nibble).toNat = (7 : Coord) := by decide

theorem witness_DrawRegisterModeReadsCoordinates :
    { params with drawCoordMode := .register }.drawCoordMode = .register ∧ params.drawEmitsRefresh = true ∧
      (0#4 : Nibble).toNat = (0 : RegIdx) ∧ (1#4 : Nibble).toNat = (1 : RegIdx) ∧ (2#4 : Nibble).toNat = (2 : RegIdx) ∧
      ((withRegs 1 7#8 2 6#8).reg 0).toNat ≤ 127 ∧ ((withRegs 1 7#8 2 6#8).reg 1).toNat = (7 : Coord) ∧
      ((withRegs 1 7#8 2 6#8).reg 2).toNat = (6 : Coord) := by decide

/-- One instruction of each form, with its next state. -/
theorem witness_RegisterWritersFrame :
    (∃ t, exec (.store 7#4 1#8) ready = .next t) ∧ (∃ t, exec (.add 0#4 1#4 7#4) ready = .next t) ∧
      (∃ t, exec (.sub 0#4 1#4 7#4) ready = .next t) ∧ (∃ t, exec (.read 7#4) ready = .next t) ∧
      (∃ t, exec (.readTimer 7#4) ready = .next t) ∧ (∃ t, exec (.convertToAscii 0#4 8#4) ready = .next t) := ⟨⟨_, rfl⟩, ⟨_, rfl⟩, ⟨_, rfl⟩, ⟨_, rfl⟩, ⟨_, rfl⟩, ⟨_, rfl⟩⟩

theorem witness_RamWritersFrame :
    ready.ram.wf = true ∧ (∃ t, exec (.write 7#4) ready = .next t) ∧ (∃ t, exec (.convertToBase10 7#4) ready = .next t) ∧
      ∃ t, exec (.write 7#4) { ready with m := true } = .next t := ⟨rfl, ⟨_, rfl⟩, ⟨_, rfl⟩, ⟨_, rfl⟩⟩

theorem witness_ControlTransferFrame :
    (∃ t, exec (.jump 0xFFE#12) ready = .next t) ∧ (∃ t, exec (.skipIfEqual 0#4 7#4) ready = .next t) ∧
      ∃ t, exec (.skipIfNotEqual 0#4 8#4) ready = .next t := ⟨⟨_, rfl⟩, ⟨_, rfl⟩, ⟨_, rfl⟩⟩

theorem witness_SpecialWritersFrame :
    (∃ t, exec (.setAddress 0xFFF#12) ready = .next t) ∧ (∃ t, exec .switchMemory ready = .next t) ∧
      (∃ t, exec (.setTimer 0xFF#8) ready = .next t) ∧ (∃ t, exec (.draw 0#4 7#4 7#4) ready = .next t) ∧
      ∃ t, exec .halt ready = .next t := ⟨⟨_, rfl⟩, ⟨_, rfl⟩, ⟨_, rfl⟩, ⟨_, rfl⟩, ⟨_, rfl⟩⟩

/-- Answered, waiting, and out of range. -/
theorem witness_ReadKeyboardFrame :
    (∃ t, exec (.readKeyboard 7#4) { ready with schedule := [.keyReply 0#8] } = .next t) ∧
      (∃ t, exec (.readKeyboard 0#4) ready = .next t) ∧ ∃ t, exec (.readKeyboard 8#4) ready = .next t := ⟨⟨_, rfl⟩, ⟨_, rfl⟩, ⟨_, rfl⟩⟩

theorem witness_DataReadChecksRangeAndSelectsBank :
    4096 ≤ (4096#16 : Word).toNat ∧ (4095#16 : Word).toNat < 4096 ∧ { ready with m := true }.m = true ∧ ready.m = false := by decide

theorem witness_DataWriteChangesOneByte :
    ready.ram.wf = true ∧ { ready with m := true }.m = true ∧ ready.m = false ∧ 4096 ≤ (4096#16 : Word).toNat ∧
      (4095#16 : Word).toNat < 4096 := by decide

theorem witness_WriteThenReadReturnsTheByte :
    (7#4 : Nibble).toNat = (7 : RegIdx) ∧ (0#4 : Nibble).toNat = (0 : RegIdx) ∧ ready.ram.wf = true ∧ ready.m = false ∧
      { ready with a := 4095#16 }.a.toNat < 4096 ∧ { ready with m := true }.m = true := by decide

/-- Raised in execute, and by the fetch. -/
theorem witness_FatalErrorHasNoOtherEffect :
    (∃ t, (about 0x0800#16).cause = .none ∧ step (about 0x0800#16) = .next t ∧ t.cause = .fatal (.registerIndexRange 8#4)) ∧
      ∃ t, step { about 0#16 with pc := 4098#16 } = .next t ∧ t.cause = .fatal (.addressOutOfRange 4098#16) := ⟨⟨_, rfl, rfl, rfl⟩, ⟨_, rfl, rfl⟩⟩

/-- A tick, and a `load`. -/
theorem witness_CauseIsKeptUntilLoad :
    let s : State := { ready with ls := .halted, cause := .cleanHalt, stopReq := true, schedule := [.instrTick] }
    (s.ls = .halted ∧ ∃ t, step s = .next t ∧ t.cause = .cleanHalt) ∧
      ∃ t, step { s with schedule := [.command (.load [])] } = .next t ∧ t.ls = .ready := ⟨⟨rfl, _, rfl, rfl⟩, ⟨_, rfl, rfl⟩⟩

theorem witness_FatalErrorsComeFromInstructions :
    Instr.executable (.jump 0x001#12) = false ∧ Instr.executable (.store 8#4 0#8) = false ∧
      Instr.executable (.draw 0#4 7#4 8#4) = false ∧ Stimulus.timerTick ≠ .instrTick ∧
      { ready with schedule := [.timerTick] }.faultFree ∧ ∃ t, step { ready with schedule := [.timerTick] } = .next t := by
  refine ⟨rfl, rfl, rfl, by decide, fun f h => ?_, ⟨_, rfl⟩⟩
  cases h

/-- Every lifecycle state, and both sides of the length limit. -/
theorem witness_CommandTable :
    State.reset.ls = .uninitialized ∧ { ready with ls := .ready }.ls = .ready ∧ ready.ls = .running ∧
      { ready with ls := .paused }.ls = .paused ∧ { ready with ls := .halted }.ls = .halted ∧
      (List.replicate 3584 0#8).length ≤ 3584 ∧ 3584 < (List.replicate 3585 0#8).length := 
  ⟨rfl, rfl, rfl, rfl, rfl, List.length_replicate.le, by rw [List.length_replicate]; decide⟩

theorem witness_LoadInstallsImageAndResets :
    let s : State := { State.reset with schedule := [.command (.load [0x50#8, 0x07#8])] }
    s.schedule = .command (.load [0x50#8, 0x07#8]) :: [] ∧ (s.ls = .uninitialized ∨ s.ls = .halted) ∧
      [0x50#8, 0x07#8].length ≤ 3584 ∧ 1 < [0x50#8, 0x07#8].length ∧ [0x50#8, 0x07#8].length ≤ 2 := by decide

theorem witness_OnlyLegalTransitions :
    ∃ t, step { ready with schedule := [.command .pause] } = .next t ∧ t.ls ≠ ready.ls := ⟨_, rfl, by decide⟩

theorem witness_ReadyForLoadMeansLoadIsAccepted :
    (List.replicate 3584 0#8).length ≤ 3584 ∧ State.reset.readyForLoad = true ∧ ready.readyForLoad = false := by
  exact ⟨List.length_replicate.le, rfl, rfl⟩

theorem witness_WaitedReadEqualsAnsweredRead :
    (7#4 : Nibble).toNat < 8 ∧ (about 0x6700#16).readyToRun ∧ (about 0x6700#16).nextInstr (.readKeyboard 7#4) := by
  unfold State.readyToRun State.nextInstr; decide

theorem witness_PublicationRunsTheHandlers :
    Event.timerSet 5#8 = .timerSet 5#8 ∧ (∀ v, Event.refresh ≠ .timerSet v) ∧ (∃ p, Event.halt 2#16 = .halt p) ∧
      ∀ p, Event.switchMemory ≠ .halt p := by
  refine ⟨rfl, fun v h => ?_, ⟨_, rfl⟩, fun p h => ?_⟩ <;> cases h

theorem witness_DeliveryOrderIsImmaterial :
    [Receiver.display, .external 4, .cpu, .lifecycle].Perm { ready with extSubs := [4] }.subs := by
  decide

theorem witness_SubscriptionsAreASet :
    subscribersRise [1, 4] ∧ 1 ∈ [1, 4] ∧ 2 ∉ [1, 4] ∧ (Receiver.cpu = .cpu ∨ Receiver.cpu = .lifecycle ∨ Receiver.cpu = .display) := by
  unfold subscribersRise; decide

/-- Each kind of input. -/
theorem witness_WriteAccessByAgent :
    (∃ t, step (about 0xA100#16) = .next t ∧ t.a ≠ (about 0xA100#16).a) ∧
      (∃ t, step { ready with t := 1#8, schedule := [.timerTick] } = .next t ∧ t.t ≠ 1#8) ∧
      (∃ t, step { ready with schedule := [.command .shutdown] } = .next t) ∧
      (∃ t, step { ready with kbdWait := some 0, schedule := [.keyReply 1#8] } = .next t ∧ t.x ≠ ready.x) ∧
      (∃ t, step { ready with schedule := [.subscribe (.external 1)] } = .next t ∧ t.extSubs = [1]) ∧
      ∃ t, step { ready with schedule := [.unsubscribe .cpu] } = .next t ∧ t.extSubs = [] := ⟨⟨_, rfl, by decide⟩, ⟨_, rfl, by decide⟩, ⟨_, rfl⟩, ⟨_, rfl, by decide⟩, ⟨_, rfl, rfl⟩, ⟨_, rfl, rfl⟩⟩

theorem witness_TimerValueReachesOnlyReadTimer :
    (∀ rX, Instr.draw 0#4 7#4 7#4 ≠ .readTimer rX) ∧ (∃ t, exec (.draw 0#4 7#4 7#4) ready = .next t) ∧
      (∀ tt, Instr.draw 0#4 7#4 7#4 ≠ .setTimer tt) ∧ ∃ t, exec (.setTimer 9#8) ready = .next t := by
  refine ⟨fun r h => ?_, ⟨_, rfl⟩, fun r h => ?_, ⟨_, rfl⟩⟩ <;> cases h

/-- Power-on with a `load` to come, and a running machine with an instruction tick to come. -/
theorem witness_EveryStepKeepsInvariant :
    (Inv { State.reset with schedule := [.command (.load [0x50#8])] } ∧
      ∃ t, step { State.reset with schedule := [.command (.load [0x50#8])] } = .next t ∧ t.ls = .ready) ∧
      Inv { ready with schedule := [.instrTick] } ∧
      ∃ t, step { ready with schedule := [.instrTick] } = .next t ∧ t.cause = .cleanHalt := by
  refine ⟨⟨?_, ⟨_, rfl, rfl⟩⟩, ?_, ⟨_, rfl, rfl⟩⟩ <;> constructor <;> constructor <;>
    simp [ready, State.reset, Memory.wf, subscribersRise]

theorem witness_PcStaysEven :
    ready.pc.toNat % 2 = 0 ∧ (∃ t, step (about 0x5FFE#16) = .next t ∧ t.pc = 0xFFE#16) ∧
      (0xFFF#12 : Addr12).toNat % 2 = 1 := ⟨rfl, ⟨_, rfl, rfl⟩, rfl⟩

theorem witness_AddressRegisterStaysTwelveBits :
    { about 0xAFFF#16 with a := 4095#16 }.a.toNat < 4096 ∧ ∃ t, step (about 0xAFFF#16) = .next t ∧ t.a = 4095#16 :=
  ⟨by decide, ⟨_, rfl, rfl⟩⟩

theorem witness_MemoriesStayCanonical :
    (about 0x4000#16).rom.wf = true ∧ (about 0x4000#16).ram.wf = true ∧ ∃ t, step (about 0x4000#16) = .next t :=
  ⟨by decide, by decide, ⟨_, rfl⟩⟩

theorem witness_SinkCallsMirrorTheTrace :
    (about 0xF000#16).sinkCalls = (about 0xF000#16).trace.flatMap (fun p => sinkCallsOf p.event) ∧
      ∃ t, step (about 0xF000#16) = .next t ∧ t.sinkCalls = [.drawPixel 0 0 0#8, .refresh] := ⟨rfl, ⟨_, rfl, rfl⟩⟩

theorem witness_LoadedMachineNeverFetchesOutOfRange :
    Inv ready ∧ ready.cycleStarts = true ∧ ∃ f, memWrite { ready with m := true } 0#16 1#8 = .error f := by
  refine ⟨?_, rfl, ⟨_, rfl⟩⟩
  constructor <;> constructor <;> simp [ready, State.reset, Memory.wf, subscribersRise]

end Sys2Proof.Tests
end

namespace Sys2Proof.Machine

/-! PROOFS. The statements about the state (10_state.md): the invariant, kept part by part through `step_elim`; which
agent writes what; the frames of the register writers and of the special writers. -/

/-! ### Addresses as numbers -/

@[simp] theorem toNat_zextAddr (aaa : Addr12) : (zextAddr aaa).toNat = aaa.toNat := by
  simp only [zextAddr, BitVec.toNat_setWidth]
  omega

/-- The advance below the wrap at 65536 (R26). -/
theorem toNat_add_two {w : Word} (h : w.toNat < 65534) : (w + 2#16).toNat = w.toNat + 2 :=
  BitVec.toNat_add_of_lt (Nat.add_lt_of_lt_sub h)

/-- The advance keeps `pc` even, its wrap at 65536 included (R26, R28). -/
theorem even_add_two {w : Word} (h : w.toNat % 2 = 0) : (w + 2#16).toNat % 2 = 0 := by
  rw [BitVec.toNat_add, show (2#16).toNat = 2 from rfl]
  omega

/-! ### What the next cycle runs -/

/-- `nextInstr` speaks of two ROM bytes, the cycle of the word they make (R58, R145). -/
theorem nextInstr_iff (s : State) (i : Instr) :
    s.nextInstr i ↔ decodeWord (wordOfBytes (s.rom.read s.pc.toNat) (s.rom.read (s.pc.toNat + 1))) = some i := by
  obtain ⟨j, hj⟩ := decodeWord_some (wordOfBytes (s.rom.read s.pc.toNat) (s.rom.read (s.pc.toNat + 1)))
  simp [State.nextInstr, decode, hj]

/-- In the zero top of ROM (R64) every word is HALT, so any other instruction stands below 3584. -/
theorem pc_lt_maxProgram {s : State} {i : Instr} (top : ∀ a, Config.maxProgram ≤ a → s.rom.read a = 0#8)
    (hi : s.nextInstr i) (hne : i ≠ .halt) : s.pc.toNat < Config.maxProgram := by
  by_contra hp
  have hp : Config.maxProgram ≤ s.pc.toNat := Nat.not_lt.1 hp
  rw [nextInstr_iff, top _ hp, top _ (Nat.le_succ_of_le hp), show wordOfBytes 0#8 0#8 = 0x0000#16 from rfl,
    decodeWord_zero] at hi
  exact hne (Option.some.inj hi).symm

/-! ### Invariants of single registers -/

/-- Every step keeps `A` below 4096: SET_ADDRESS writes 12 bits, a `load` 0, and nothing else writes it (R23). -/
theorem step_keeps_a_bound {s t : State} (ha : s.a.toNat < 4096) (h : step s = .next t) : t.a.toNat < 4096 := by
  apply step_elim h (fun u => u.a.toNat < 4096)
  case load => intros; simp
  case run =>
    intro l i u _ _ _ hC
    obtain ⟨-, -, hset, -⟩ := completes_frame hC
    by_cases e : u.a = s.a
    · rwa [e]
    · obtain ⟨aaa, -, e'⟩ := hset e
      rw [e', toNat_zextAddr]
      exact aaa.isLt
  all_goals intros; exact ha

/-- Every step keeps `pc` even: it is advanced by 2, or set by a JUMP whose target passed the parity check (R28). -/
theorem step_keeps_pc_even {s t : State} (hp : s.pc.toNat % 2 = 0) (h : step s = .next t) : t.pc.toNat % 2 = 0 := by
  apply step_elim h (fun u => u.pc.toNat % 2 = 0)
  case load => intros; simp
  case fatal => intros; exact even_add_two hp
  case run =>
    intro l i u _ _ _ hC
    obtain ⟨-, -, -, -, -, -, -, e | e | ⟨aaa, even, e⟩⟩ := completes_frame hC <;> rw [e]
    · exact even_add_two hp
    · exact even_add_two (even_add_two hp)
    · change (zextAddr aaa).toNat % 2 = 0
      rwa [toNat_zextAddr]
  all_goals intros; exact hp

/-! ### The invariant, part by part -/

/-- `start`, `pause` and `resume` move between states in which a program is loaded and its run has not ended (R192). -/
theorem live_of_move {l m : Lifecycle}
    (h : (l = .ready ∧ m = .running) ∨ (l = .running ∧ m = .paused) ∨ (l = .paused ∧ m = .running)) :
    l ≠ .uninitialized ∧ l ≠ .halted ∧ (m = .running ∨ m = .paused) := by
  rcases h with ⟨rfl, rfl⟩ | ⟨rfl, rfl⟩ | ⟨rfl, rfl⟩ <;> decide

/-- A loaded machine that keeps ROM, and RAM canonical, keeps the memory part of the invariant. -/
theorem MemoryInv.of_rom_eq {s t : State} (hm : MemoryInv s) (hrom : t.rom = s.rom) (hram : t.ram.wf = true)
    (hls : s.ls ≠ .uninitialized) : MemoryInv t where
  rom_wf := hrom ▸ hm.rom_wf
  ram_wf := hram
  rom_top _ := hrom ▸ hm.rom_top hls

/-- A `load` image is canonical, and zero from its end up (R64, R252). -/
theorem memoryInv_of_image {t : State} {bytes : List Byte} (hrom : t.rom = Memory.ofBytes 0 bytes) (hram : t.ram = [])
    (hb : bytes.length ≤ Config.maxProgram) : MemoryInv t where
  rom_wf := hrom ▸ Memory.wf_ofBytes bytes (hb.trans (by decide))
  ram_wf := hram ▸ rfl
  rom_top _ a ha := by
    rw [hrom, Memory.read_ofBytes, List.getD_eq_default _ _ (hb.trans ha)]

theorem step_keeps_memoryInv {s t : State} (hm : MemoryInv s) (h : step s = .next t) : MemoryInv t := by
  apply step_elim h MemoryInv
  case load => intro l b _ hb; exact memoryInv_of_image rfl rfl hb
  case run =>
    intro l i u hl _ _ hC
    obtain ⟨⟨hrom, -⟩, -⟩ := completes_frame hC
    exact hm.of_rom_eq hrom (completes_ram_wf hC hm.ram_wf) (by simp [hl])
  case fatalFetch => intro l a hl; exact hm.of_rom_eq rfl hm.ram_wf (by simp [hl])
  case fatal => intro l f hl _; exact hm.of_rom_eq rfl hm.ram_wf (by simp [hl])
  case shut => intro l hl _; exact hm.of_rom_eq rfl hm.ram_wf hl
  case move => intro l m hmove; exact hm.of_rom_eq rfl hm.ram_wf (live_of_move hmove).1
  all_goals intros; exact ⟨hm.rom_wf, hm.ram_wf, hm.rom_top⟩

/-- A completed instruction leaves `pc` inside ROM while the run lives: only HALT can stand at 3584 or above, and it ends
the run with `pc` at most 4096 (R54). -/
theorem completes_pc_bounds {i : Instr} {s u : State} (hC : Completes i s.advance u) (hp : s.pc.toNat ≤ 4094)
    (hlow : i ≠ .halt → s.pc.toNat < 3584) : (u.ls ≠ .halted → u.pc.toNat ≤ 4094) ∧ u.pc.toNat ≤ 4096 := by
  obtain ⟨-, -, -, -, -, -, hhalt, hpc⟩ := completes_frame hC
  have adv : s.advance.pc.toNat = s.pc.toNat + 2 := toNat_add_two (by omega)
  by_cases hi : i = .halt
  · obtain ⟨hls, -, -, -, hpc, -⟩ := hhalt hi
    exact ⟨fun hne => absurd hls hne, by rw [hpc]; omega⟩
  · have hlow := hlow hi
    have bound : u.pc.toNat ≤ 4094 := by
      rcases hpc with e | e | ⟨aaa, even, e⟩ <;> rw [e]
      · omega
      · rw [toNat_add_two (by omega)]
        omega
      · change (zextAddr aaa).toNat ≤ 4094
        rw [toNat_zextAddr]
        omega
    exact ⟨fun _ => bound, by omega⟩

/-- The program counter stays inside ROM while the run lives and at most 4096 ever (R29, R54). -/
theorem step_keeps_pc_bounds {s t : State} (hm : MemoryInv s) (ha : AddressInv s) (h : step s = .next t) :
    (t.ls ≠ .halted → t.pc.toNat ≤ 4094) ∧ t.pc.toNat ≤ 4096 := by
  apply step_elim h (fun u => (u.ls ≠ .halted → u.pc.toNat ≤ 4094) ∧ u.pc.toNat ≤ 4096)
  case load => intros; simp
  case fatalFetch | shut => intros; exact ⟨fun hne => absurd rfl hne, ha.pc_bound⟩
  case fatal =>
    intro l f hl _
    have hlive : s.pc.toNat ≤ 4094 := ha.pc_live (by simp [hl])
    have adv : (s.pc + 2#16).toNat = s.pc.toNat + 2 := toNat_add_two (by omega)
    exact ⟨fun hne => absurd rfl hne, adv.trans_le (by omega)⟩
  case run =>
    intro l i u hl _ hi hC
    exact completes_pc_bounds (s := { s with schedule := l }) hC (ha.pc_live (by simp [hl]))
      (pc_lt_maxProgram (hm.rom_top (by simp [hl])) ((nextInstr_iff s i).2 hi))
  case move =>
    intro l m hmove
    obtain ⟨-, live, -⟩ := live_of_move hmove
    exact ⟨fun _ => ha.pc_live live, ha.pc_bound⟩
  all_goals intros; exact ⟨ha.pc_live, ha.pc_bound⟩

theorem step_keeps_addressInv {s t : State} (hm : MemoryInv s) (ha : AddressInv s) (h : step s = .next t) :
    AddressInv t := by
  obtain ⟨live, bound⟩ := step_keeps_pc_bounds hm ha h
  exact ⟨step_keeps_pc_even ha.pc_even h, live, bound, step_keeps_a_bound ha.a_bound h⟩

/-- While the run has not ended, `cause` is `None` (R34). -/
theorem LifecycleInv.cause_none {s : State} (hl : LifecycleInv s) (h : s.ls ≠ .halted) : s.cause = .none :=
  not_not.1 fun hc => h (hl.cause_iff.2 hc)

theorem lifecycleInv_of_halted {t : State} (hls : t.ls = .halted) (hc : t.cause ≠ .none) (hs : t.stopReq = true) :
    LifecycleInv t := by
  constructor <;> simp [hls, hc, hs]

theorem lifecycleInv_of_live {t : State} (hls : t.ls ≠ .halted) (hc : t.cause = .none) (hs : t.stopReq = false)
    (hw : t.ls = .uninitialized ∨ t.ls = .ready → t.kbdWait = none) : LifecycleInv t where
  cause_iff := by simp [hls, hc]
  stop_iff := by simp [hls, hs]
  wait := hw

theorem step_keeps_lifecycleInv {s t : State} (hl : LifecycleInv s) (h : step s = .next t) : LifecycleInv t := by
  have live : s.ls ≠ .halted → s.cause = .none ∧ s.stopReq = false := fun hne =>
    ⟨hl.cause_none hne, by simpa [hne] using hl.stop_iff⟩
  apply step_elim h LifecycleInv
  case fatalFetch | fatal | shut => intros; exact lifecycleInv_of_halted rfl (by simp) rfl
  case load => intros; exact lifecycleInv_of_live (by simp) rfl rfl (by simp)
  case key => intros; exact ⟨hl.cause_iff, hl.stop_iff, fun _ => rfl⟩
  case run =>
    intro l i u hrun _ _ hC
    obtain ⟨-, hkeep, -, -, -, -, hhalt, -⟩ := completes_frame hC
    by_cases hi : i = .halt
    · obtain ⟨hls, hcause, hstop, -⟩ := hhalt hi
      exact lifecycleInv_of_halted hls (by simp [hcause]) hstop
    · obtain ⟨hls, hcause, hstop, -⟩ := hkeep hi
      obtain ⟨hc, hs⟩ := live (by simp [hrun])
      have hls : u.ls = .running := hls.trans hrun
      exact lifecycleInv_of_live (by simp [hls]) (hcause.trans hc) (hstop.trans hs) (by simp [hls])
  case move =>
    intro l m hmove
    obtain ⟨-, hne, hm⟩ := live_of_move hmove
    obtain ⟨hc, hs⟩ := live hne
    rcases hm with rfl | rfl <;> exact lifecycleInv_of_live (by simp) hc hs (by simp)
  all_goals intros; exact ⟨hl.cause_iff, hl.stop_iff, hl.wait⟩

/-- Publications that mirror themselves on the sink and draw no value above 127 keep the outputs in step. -/
theorem OutputInv.publishes {s t : State} {ps : List Publication} (ho : OutputInv s) (hp : Publishes s t ps)
    (hsubs : t.extSubs = s.extSubs) : OutputInv t := by
  obtain ⟨htrace, hsink, hascii⟩ := hp
  refine ⟨?_, fun p hmem => ?_, hsubs ▸ ho.subs_rise⟩
  · rw [hsink, htrace, List.flatMap_append, ho.mirror]
  · rw [htrace, List.mem_append] at hmem
    exact hmem.elim (ho.ascii p) (hascii p)

theorem step_keeps_outputInv {s t : State} (ho : OutputInv s) (h : step s = .next t) : OutputInv t := by
  apply step_elim h OutputInv
  case load => intros; exact ⟨rfl, by simp, ho.subs_rise⟩
  case subs => intro l n; exact ⟨ho.mirror, ho.ascii, pairwise_insertSubscriber n _ ho.subs_rise⟩
  case unsub => intro l n; exact ⟨ho.mirror, ho.ascii, List.Pairwise.filter _ ho.subs_rise⟩
  case tick =>
    intros
    exact ho.publishes (ps := [⟨.timerTick (s.t - 1#8), s.extSubs⟩])
      ⟨rfl, by simp [sinkCallsOf], by simp [Event.drawsNonAscii]⟩ rfl
  case run =>
    intro l i u _ _ _ hC
    obtain ⟨⟨-, hsubs, -⟩, -⟩ := completes_frame hC
    obtain ⟨ps, hp, -⟩ := completes_publishes hC
    exact ho.publishes hp hsubs
  all_goals intros; exact ⟨ho.mirror, ho.ascii, ho.subs_rise⟩

/-- With no clean end there must be no `Halt` event (R153). -/
theorem endInv_of_no_halt {t : State} (hc : t.cause ≠ .cleanHalt) (htrace : ∀ p ∈ t.trace, p.event.isHalt = false) :
    EndInv t :=
  ⟨fun e => absurd e hc, fun _ => htrace⟩

theorem step_keeps_endInv {s t : State} (hl : LifecycleInv s) (he : EndInv s) (h : step s = .next t) : EndInv t := by
  have quiet : s.ls ≠ .halted → ∀ p ∈ s.trace, p.event.isHalt = false := fun hne =>
    he.other (by simp [hl.cause_none hne])
  have quietRun : s.ls = .running → ∀ p ∈ s.trace, p.event.isHalt = false := fun hrun => quiet (by simp [hrun])
  have causeRun : s.ls = .running → s.cause = .none := fun hrun => hl.cause_none (by simp [hrun])
  apply step_elim h EndInv
  case load => intros; exact endInv_of_no_halt (by simp) (by simp)
  case shut => intro l _ hne; exact endInv_of_no_halt (by simp) (quiet hne)
  case fatalFetch => intro l a hrun; exact endInv_of_no_halt (by simp) (quietRun hrun)
  case fatal => intro l f hrun _; exact endInv_of_no_halt (by simp) (quietRun hrun)
  case tick =>
    intro l hrun _ _
    refine endInv_of_no_halt (by simp [causeRun hrun]) ?_
    simpa [or_imp, forall_and, Event.isHalt] using quietRun hrun
  case run =>
    intro l i u hrun _ _ hC
    obtain ⟨-, hkeep, -, -, -, -, hhalt, -⟩ := completes_frame hC
    by_cases hi : i = .halt
    · obtain ⟨-, hcause, -, hhaltPc, hpc, htrace, -⟩ := hhalt hi
      refine ⟨fun _ => ⟨s.trace, s.extSubs, hhaltPc ▸ htrace, quietRun hrun, ?_⟩, fun hne => absurd hcause hne⟩
      simp [hhaltPc, hpc, State.pc0]
    · obtain ⟨-, hcause, -⟩ := hkeep hi
      obtain ⟨ps, ⟨htrace, -⟩, hps⟩ := completes_publishes hC
      refine endInv_of_no_halt (by simp [hcause, causeRun hrun]) fun p hmem => ?_
      rw [htrace, List.mem_append] at hmem
      exact hmem.elim (quietRun hrun p) (hps hi p)
  all_goals intros; exact ⟨he.clean, he.other⟩

/-- Settles O55: each part of the invariant is kept by every step, given the parts before it. -/
theorem everyStepKeepsInvariant : Obligations.EveryStepKeepsInvariant := by
  intro s t inv h
  exact ⟨step_keeps_memoryInv inv.memory h, step_keeps_addressInv inv.memory inv.address h,
    step_keeps_lifecycleInv inv.lifecycle h, step_keeps_outputInv inv.output h,
    step_keeps_endInv inv.lifecycle inv.ending h⟩

/-- Settles O56: no step writes an odd `pc`, and the PC action of JUMP refuses one. -/
theorem pcStaysEven : Obligations.PcStaysEven :=
  ⟨fun _ _ => step_keeps_pc_even, fun s _ => applyAction_setPc_odd s⟩

/-- Settles O57: SET_ADDRESS and `load` are the only writers of `A`. -/
theorem addressRegisterStaysTwelveBits : Obligations.AddressRegisterStaysTwelveBits :=
  fun _ _ => step_keeps_a_bound

/-- Settles O54: every register is 0, both arrays and the outputs are empty. -/
theorem resetMeetsInvariant : Obligations.ResetMeetsInvariant where
  memory := ⟨rfl, rfl, fun h => absurd rfl h⟩
  address := ⟨rfl, fun _ => Nat.zero_le _, Nat.zero_le _, Nat.zero_lt_succ _⟩
  lifecycle := lifecycleInv_of_live (by decide) rfl rfl fun _ => rfl
  output := ⟨rfl, by simp [State.reset], List.Pairwise.nil⟩
  ending := endInv_of_no_halt (by decide) (by simp [State.reset])

/-! ### Which agent writes what (R43) -/

/-- An instruction tick writes a register of the core only by the instruction at `pc` that the table of R43 names. -/
theorem instructionTick_access {s t : State} (h : instructionTick s = .next t) :
    t.rom = s.rom ∧ t.extSubs = s.extSubs ∧ t.reply = s.reply ∧
      (t.a ≠ s.a → ∃ aaa, s.nextInstr (.setAddress aaa)) ∧ (t.t ≠ s.t → ∃ tt, s.nextInstr (.setTimer tt)) ∧
      (t.m ≠ s.m → s.nextInstr .switchMemory) ∧
      (t.ram ≠ s.ram → ∃ rX, s.nextInstr (.write rX) ∨ s.nextInstr (.convertToBase10 rX)) ∧
      (t.haltPc ≠ s.haltPc → s.nextInstr .halt) ∧ (t.ls ≠ s.ls → s.ls = .running ∧ t.ls = .halted) ∧
      (t.cause ≠ s.cause → t.ls = .halted) := by
  rcases instructionTick_cases s with ⟨-, e⟩ | ⟨hc, -, a, e⟩ | ⟨hc, -, i, hi, e⟩ <;> rw [e] at h
  · cases h; simp
  · cases h; simp [((cycleStarts_iff s).1 hc).1]
  · obtain ⟨hrun, -⟩ := (cycleStarts_iff s).1 hc
    rcases exec_cases i s.advance with ⟨f, e⟩ | ⟨u, e, hC⟩ <;> rw [e] at h <;> cases h
    · simp [hrun]
    · obtain ⟨⟨hrom, hsubs, hreply⟩, hkeep, ha, ht, hm, hram, hhalt, -⟩ := completes_frame hC
      have next : s.nextInstr i := (nextInstr_iff s i).2 hi
      have isHalt : t.ls ≠ s.ls ∨ t.cause ≠ s.cause ∨ t.haltPc ≠ s.haltPc → i = .halt := by
        intro hd
        by_contra hne
        obtain ⟨hls, hcause, -, hpc⟩ := hkeep hne
        rcases hd with hd | hd | hd
        · exact hd hls
        · exact hd hcause
        · exact hd hpc
      refine ⟨hrom, hsubs, hreply, fun hne => ?_, fun hne => ?_, fun hne => hm hne ▸ next, fun hne => ?_,
        fun hne => isHalt (.inr (.inr hne)) ▸ next, fun hne => ⟨hrun, ?_⟩, fun hne => ?_⟩
      · obtain ⟨aaa, rfl, -⟩ := ha hne
        exact ⟨aaa, next⟩
      · obtain ⟨tt, rfl⟩ := ht hne
        exact ⟨tt, next⟩
      · obtain ⟨rX, rfl | rfl⟩ := hram hne
        · exact ⟨rX, .inl next⟩
        · exact ⟨rX, .inr next⟩
      · exact (hhalt (isHalt (.inl hne))).1
      · exact (hhalt (isHalt (.inr (.inl hne)))).1

/-- A timer tick writes `T`, down by one in `Running`, and the trace (R183). -/
theorem timerTick_access (s : State) :
    timerTick s = { s with t := (timerTick s).t, trace := (timerTick s).trace } ∧
      ((timerTick s).t ≠ s.t → s.ls = .running ∧ (timerTick s).t.toNat + 1 = s.t.toNat) := by
  rcases timerTick_cases s with ⟨e, -⟩ | ⟨hrun, hpos, e⟩ <;> rw [e]
  · exact ⟨rfl, fun hne => absurd rfl hne⟩
  · refine ⟨rfl, fun _ => ⟨by simp_all [State.clocksRun], ?_⟩⟩
    have hpos : 1 ≤ s.t.toNat := hpos
    rw [BitVec.toNat_sub_of_le hpos]
    exact Nat.sub_add_cancel hpos

/-- A host command other than `load` writes the lifecycle records and its reply alone (R194 to R199). -/
theorem hostCommand_access (c : Command) (s : State) : (∃ bytes, c = .load bytes) ∨
    hostCommand c s = { s with
      ls := (hostCommand c s).ls, cause := (hostCommand c s).cause, stopReq := (hostCommand c s).stopReq,
      reply := (hostCommand c s).reply } := by
  cases c with
  | load bytes => exact .inl ⟨bytes, rfl⟩
  | start | pause | resume | shutdown =>
    refine .inr ?_
    unfold hostCommand
    split <;> rfl

/-- No command touches the subscriber set, `load` included (R252). -/
theorem hostCommand_extSubs (c : Command) (s : State) : (hostCommand c s).extSubs = s.extSubs := by
  rcases hostCommand_access c s with ⟨bytes, rfl⟩ | e
  · simp only [hostCommand, acceptCommand]
    split
    · split <;> rfl
    · rfl
  · rw [e]

/-- A keyboard reply writes `x` and the wait alone, and leaves nothing waiting (R201). -/
theorem keyReply_access (k : Byte) (s : State) :
    keyReply k s = { s with x := (keyReply k s).x, kbdWait := none } := by
  unfold keyReply
  split
  · rfl
  · next h => rw [← h]

theorem subscribe_access (r : Receiver) (s : State) :
    subscribe r s = { s with extSubs := (subscribe r s).extSubs } := by
  cases r <;> rfl

theorem unsubscribe_access (r : Receiver) (s : State) :
    unsubscribe r s = { s with extSubs := (unsubscribe r s).extSubs } := by
  cases r <;> rfl

/-- Settles O51: one clause per kind of input, each from the lemma about what that input writes. -/
theorem writeAccessByAgent : Obligations.WriteAccessByAgent := by
  intro s t q rest hs h
  rw [step_cons s hs] at h
  refine ⟨?_, ?_, ?_, ?_, ?_⟩
  · rintro rfl
    exact instructionTick_access (s := { s with schedule := rest }) h
  · rintro rfl
    cases h
    exact timerTick_access { s with schedule := rest }
  · rintro c rfl
    cases h
    refine ⟨hostCommand_extSubs c _, fun hne => ?_⟩
    rcases hostCommand_access c { s with schedule := rest } with hload | e
    · exact hload
    · rw [e] at hne
      simp at hne
  · rintro k rfl
    cases h
    exact keyReply_access k { s with schedule := rest }
  · rintro r (rfl | rfl) <;> cases h
    · exact subscribe_access r { s with schedule := rest }
    · exact unsubscribe_access r { s with schedule := rest }

/-! ### Frames (R43, R62) -/

/-- Taking a fatal error changes the lifecycle records only (R212). -/
theorem takeFatal_frame (f : FatalError) (s : State) :
    sameRegs s (takeFatal f s) ∧ sameMemory s (takeFatal f s) ∧ sameSpecial s (takeFatal f s) ∧
      sameOutputs s (takeFatal f s) :=
  ⟨fun _ => rfl, fun _ => ⟨rfl, rfl⟩, ⟨rfl, rfl, rfl, rfl, rfl, rfl⟩, rfl, rfl, rfl, rfl⟩

/-- Writing a register changes that register only (R20, R21). -/
theorem setReg_frame (s : State) (k : RegIdx) (v : Byte) :
    (∀ r : RegIdx, r ≠ k → (s.setReg k v).reg r = s.reg r) ∧ sameMemory s (s.setReg k v) ∧
      sameSpecial s (s.setReg k v) ∧ sameOutputs s (s.setReg k v) ∧ sameLifecycle s (s.setReg k v) :=
  ⟨fun _ hr => State.reg_setReg_ne s v hr.symm, fun _ => ⟨rfl, rfl⟩, ⟨rfl, rfl, rfl, rfl, rfl, rfl⟩,
    ⟨rfl, rfl, rfl, rfl⟩, rfl, rfl, rfl⟩

/-- `i` faults with no other effect, or ends with one write to the register its field `d` names. -/
def WritesOneReg (i : Instr) (d : Nibble) (s : State) : Prop :=
  (∃ f, exec i s = .next (takeFatal f s)) ∨ ∃ (k : RegIdx) (v : Byte), d.toNat = k ∧ exec i s = .next (s.setReg k v)

/-- An instruction whose effects, when it raises nothing, are one register write and no event. -/
theorem writesOneReg_of_effects {i : Instr} {d : Nibble} {s : State} {r : Except FatalError Effects}
    (hx : exec i s = finish s r)
    (hr : ∀ e, r = .ok e → ∃ (k : RegIdx) (v : Byte), regIdx d = .ok k ∧ e = { state := s.setReg k v }) :
    WritesOneReg i d s := by
  rcases finish_cases s r with ⟨f, hf⟩ | ⟨e, s', he, ha, hf⟩
  · exact .inl ⟨f, hx.trans hf⟩
  · obtain ⟨k, v, hk, rfl⟩ := hr e he
    cases ha
    exact .inr ⟨k, v, regIdx_eq_ok.1 hk, hx.trans hf⟩

theorem store_writesOneReg (d : Nibble) (bb : Byte) (s : State) : WritesOneReg (.store d bb) d s := by
  refine writesOneReg_of_effects rfl fun e he => ?_
  obtain ⟨k, hk, h⟩ := bind_eq_ok.1 he
  cases h
  exact ⟨k, _, hk, rfl⟩

/-- ADD and SUB: two source registers, checked first, and a destination. -/
theorem arith_writesOneReg {i : Instr} {rX rY d : Nibble} {s : State} (op : Byte → Byte → Byte)
    (hx : exec i s = finish s do
      let a ← reg s rX
      let b ← reg s rY
      let k ← regIdx d
      return { state := s.setReg k (op a b) }) : WritesOneReg i d s := by
  refine writesOneReg_of_effects hx fun e he => ?_
  obtain ⟨a, -, h⟩ := bind_eq_ok.1 he
  obtain ⟨b, -, h⟩ := bind_eq_ok.1 h
  obtain ⟨k, hk, h⟩ := bind_eq_ok.1 h
  cases h
  exact ⟨k, _, hk, rfl⟩

theorem read_writesOneReg (d : Nibble) (s : State) : WritesOneReg (.read d) d s := by
  refine writesOneReg_of_effects rfl fun e he => ?_
  obtain ⟨k, hk, h⟩ := bind_eq_ok.1 he
  obtain ⟨v, -, h⟩ := bind_eq_ok.1 h
  cases h
  exact ⟨k, _, hk, rfl⟩

theorem readTimer_writesOneReg (d : Nibble) (s : State) : WritesOneReg (.readTimer d) d s := by
  refine writesOneReg_of_effects rfl fun e he => ?_
  obtain ⟨k, hk, h⟩ := bind_eq_ok.1 he
  cases h
  exact ⟨k, _, hk, rfl⟩

theorem convertToAscii_writesOneReg (rX d : Nibble) (s : State) : WritesOneReg (.convertToAscii rX d) d s := by
  refine writesOneReg_of_effects rfl fun e he => ?_
  obtain ⟨v, -, h⟩ := bind_eq_ok.1 he
  obtain ⟨k, hk, h⟩ := bind_eq_ok.1 h
  obtain ⟨u, -, h⟩ := bind_eq_ok.1 h
  cases h
  exact ⟨k, _, hk, rfl⟩

/-- Settles O32: each of the six instructions faults or writes the register its field names. -/
theorem registerWritersFrame : Obligations.RegisterWritersFrame := by
  intro i d s t hi h
  have one : WritesOneReg i d s := by
    rcases hi with ⟨bb, rfl⟩ | ⟨rX, rY, rfl⟩ | ⟨rX, rY, rfl⟩ | rfl | rfl | ⟨rX, rfl⟩
    · exact store_writesOneReg d bb s
    · exact arith_writesOneReg addWrap rfl
    · exact arith_writesOneReg subClamp rfl
    · exact read_writesOneReg d s
    · exact readTimer_writesOneReg d s
    · exact convertToAscii_writesOneReg rX d s
  rcases one with ⟨f, e⟩ | ⟨k, v, hk, e⟩ <;> rw [e] at h <;> cases h
  · obtain ⟨regs, mem, special, outputs⟩ := takeFatal_frame f s
    exact ⟨fun r _ => regs r, mem, special, outputs, rfl, .inr ⟨f, rfl⟩⟩
  · obtain ⟨regs, mem, special, outputs, lifecycle⟩ := setReg_frame s k v
    exact ⟨fun r hr => regs r fun e => hr (e ▸ hk.symm), mem, special, outputs, rfl, .inl lifecycle⟩

/-- Settles O35: a fault keeps everything but the lifecycle records, and each completed instruction writes the parts
its own `Completes` names. -/
theorem specialWritersFrame : Obligations.SpecialWritersFrame := by
  intro i s t hi h
  rcases exec_cases i s with ⟨f, e⟩ | ⟨u, e, hC⟩ <;> rw [e] at h <;> cases h
  · obtain ⟨regs, mem, ⟨ha, ht, hm, hhalt, hkbd, hsubs⟩, htrace, hsink, hreply, hsched⟩ := takeFatal_frame f s
    exact ⟨regs, mem, rfl, hkbd, hsubs, hreply, hsched, absurd ha, absurd hm, absurd ht, absurd hhalt, absurd hsink,
      absurd htrace, .inr (.inr ⟨f, rfl⟩)⟩
  · cases i with
    | setAddress | switchMemory | setTimer | halt => cases hC; simp [sameRegs, sameMemory, sameLifecycle, State.reg]
    | draw =>
      obtain ⟨x, y, v, -, rfl⟩ := hC
      simp [sameRegs, sameMemory, sameLifecycle, State.reg]
    | store | add | sub | read | write | jump | readKeyboard | skipIfEqual | skipIfNotEqual | readTimer
    | convertToBase10 | convertToAscii => simp at hi

end Sys2Proof.Machine

namespace Sys2Proof.Machine

/-! PROOFS. The statements about the memories (20_memory.md): the fetch and the two data accesses case by case, what
WRITE and READ do with a valid register field, the frame of the storing instructions, and the canonical form kept by
every step. -/

/-! ### The fetch (R58) -/

/-- Two ROM bytes as a word, by number: the first byte is the high one (R59). -/
theorem wordOfBytes_eq_ofNat (hi lo : Byte) : wordOfBytes hi lo = BitVec.ofNat 16 (hi.toNat * 256 + lo.toNat) := by
  rw [← toNat_wordOfBytes, BitVec.ofNat_toNat, BitVec.setWidth_eq]

/-- At the last cell the first byte is in range and the second is not (R58). -/
theorem fetch_last (s : State) : fetch s 4095#16 = .error (.addressOutOfRange 4096#16) := rfl

/-- Settles O7: the two range checks, then the word of the two bytes; the bank flag and RAM occur in neither. -/
theorem fetchReadsRomBigEndian : Obligations.FetchReadsRomBigEndian := by
  intro s a
  refine ⟨fetch_out s, fun h => ?_, fun h => ?_, fun _ _ => rfl⟩
  · obtain rfl : a = 4095#16 := BitVec.eq_of_toNat_eq h
    exact fetch_last s
  · rw [fetch_in s (Nat.succ_lt_succ h), wordOfBytes_eq_ofNat]

/-! ### The data accesses (R56, R57) -/

/-- Settles O37: the range check, then the bank that `M` selects. -/
theorem dataReadChecksRangeAndSelectsBank : Obligations.DataReadChecksRangeAndSelectsBank := by
  intro s addr
  refine ⟨fun h => memRead_out s (Nat.not_lt.2 h), fun h hm => ?_, fun h hm => ?_⟩
  · rw [memRead_in s h, if_pos hm]
  · rw [memRead_in s h, if_neg (by simp [hm])]

theorem memWrite_rom (s : State) (addr : Word) (v : Byte) (hm : s.m = true) :
    memWrite s addr v = .error (.romWrite addr) := by
  simp [memWrite, checkWrite_rom s addr hm]

theorem memWrite_out (s : State) {addr : Word} (v : Byte) (hm : s.m = false) (h : ¬ addr.toNat < Config.memSize) :
    memWrite s addr v = .error (.addressOutOfRange addr) := by
  simp [memWrite, checkWrite_out s hm h]

theorem memWrite_in (s : State) {addr : Word} (v : Byte) (hm : s.m = false) (h : addr.toNat < Config.memSize) :
    memWrite s addr v = .ok (s.setRam addr v) := by
  simp [memWrite, checkWrite_in s hm h]

/-- Settles O38: the bank check, the range check, then one write to RAM, read back by `Memory.read_write`. -/
theorem dataWriteChangesOneByte : Obligations.DataWriteChangesOneByte := by
  intro s addr v wf
  exact ⟨memWrite_rom s addr v, fun hm h => memWrite_out s v hm (Nat.not_lt.2 h), fun hm h =>
    ⟨s.setRam addr v, memWrite_in s v hm h, Memory.read_write s.ram wf addr.toNat v, rfl⟩⟩

/-! ### WRITE then READ (R63) -/

theorem reg_of_toNat_eq (s : State) {f : Nibble} {i : RegIdx} (h : f.toNat = i) : reg s f = .ok (s.reg i) := by
  simp [reg, regIdx_eq_ok.2 h]

theorem exec_write_ram (s : State) {rX : Nibble} {x : RegIdx} (hx : rX.toNat = x) (hm : s.m = false)
    (ha : s.a.toNat < Config.memSize) : exec (.write rX) s = .next (s.setRam s.a (s.reg x)) := by
  simp [exec, execWrite, reg_of_toNat_eq s hx, memWrite_in s _ hm ha]

theorem exec_write_rom (s : State) {rX : Nibble} {x : RegIdx} (hx : rX.toNat = x) (hm : s.m = true) :
    exec (.write rX) s = .next (takeFatal (.romWrite s.a) s) := by
  simp [exec, execWrite, reg_of_toNat_eq s hx, memWrite_rom s _ _ hm]

theorem exec_read_ram (s : State) {rY : Nibble} {y : RegIdx} (hy : rY.toNat = y) (hm : s.m = false)
    (ha : s.a.toNat < Config.memSize) : exec (.read rY) s = .next (s.setReg y (s.ram.read s.a.toNat)) := by
  simp [exec, execRead, regIdx_eq_ok.2 hy, memRead_in s ha, hm]

/-- Settles O39: WRITE stores at `A` and keeps `A` and `M`, so READ finds the byte there (`Memory.read_write`); with ROM
selected WRITE is the fatal error, which keeps both arrays. -/
theorem writeThenReadReturnsTheByte : Obligations.WriteThenReadReturnsTheByte := by
  intro rX rY s x y hx hy wf
  refine ⟨fun hm ha => ?_, fun hm => ?_⟩
  · refine ⟨_, _, exec_write_ram s hx hm ha, exec_read_ram (s.setRam s.a (s.reg x)) hy hm ha, ?_⟩
    rw [State.reg_setReg_same, State.setRam_ram, Memory.read_write s.ram wf, State.setRam_a, if_pos rfl]
  · obtain ⟨-, mem, -, -⟩ := takeFatal_frame (.romWrite s.a) s
    exact ⟨_, exec_write_rom s hx hm, rfl, mem⟩

/-! ### The frame of the storing instructions (R62) -/

/-- What an answered instruction has done: a fatal error with no other effect, or what `Completes` says. -/
theorem cases_of_exec {i : Instr} {s t : State} (h : exec i s = .next t) :
    (∃ f, t = takeFatal f s) ∨ Completes i s t := by
  rcases exec_cases i s with ⟨f, e⟩ | ⟨u, e, hC⟩ <;> rw [e] at h <;> cases h
  · exact .inl ⟨f, rfl⟩
  · exact .inr hC

/-- Everything outside RAM is unchanged, a fatal error's records excepted (R43, R62). -/
def KeepsAllButRam (s t : State) : Prop :=
  sameRegs s t ∧ sameSpecial s t ∧ sameOutputs s t ∧ t.pc = s.pc ∧ (sameLifecycle s t ∨ ∃ f, t = takeFatal f s) ∧
    ∀ a, t.rom.read a = s.rom.read a

theorem takeFatal_keepsAllButRam (f : FatalError) (s : State) : KeepsAllButRam s (takeFatal f s) := by
  obtain ⟨regs, mem, special, outputs⟩ := takeFatal_frame f s
  exact ⟨regs, special, outputs, rfl, .inr ⟨f, rfl⟩, fun a => (mem a).2⟩

theorem ramUpdate_keepsAllButRam (s : State) (ram : Memory) : KeepsAllButRam s { s with ram := ram } :=
  ⟨fun _ => rfl, ⟨rfl, rfl, rfl, rfl, rfl, rfl⟩, ⟨rfl, rfl, rfl, rfl⟩, rfl, .inl ⟨rfl, rfl, rfl⟩, fun _ => rfl⟩

/-- WRITE changes the byte at its data address at most (R57, R111). -/
theorem write_frame {rX : Nibble} {s t : State} (wf : s.ram.wf = true) (h : exec (.write rX) s = .next t) :
    KeepsAllButRam s t ∧ ∀ a, a ≠ (dataAddr s 0#16).toNat → t.ram.read a = s.ram.read a := by
  rcases cases_of_exec h with ⟨f, rfl⟩ | ⟨-, -, v, rfl⟩
  · exact ⟨takeFatal_keepsAllButRam f s, fun _ _ => rfl⟩
  · refine ⟨ramUpdate_keepsAllButRam s _, fun a h0 => ?_⟩
    rw [dataAddr_zero] at h0
    rw [State.setRam_ram, Memory.read_write s.ram wf, if_neg h0]

/-- CONVERT_TO_BASE10 changes the bytes at its three data addresses at most (R57, R115). -/
theorem convertToBase10_frame {rX : Nibble} {s t : State} (wf : s.ram.wf = true)
    (h : exec (.convertToBase10 rX) s = .next t) :
    KeepsAllButRam s t ∧
      ∀ a, a ≠ (dataAddr s 0#16).toNat → a ≠ (dataAddr s 1#16).toNat → a ≠ (dataAddr s 2#16).toNat →
        t.ram.read a = s.ram.read a := by
  rcases cases_of_exec h with ⟨f, rfl⟩ | ⟨-, in0, in1, -, d0, d1, d2, rfl⟩
  · exact ⟨takeFatal_keepsAllButRam f s, fun _ _ _ _ => rfl⟩
  · refine ⟨ramUpdate_keepsAllButRam s _, fun a h0 h1 h2 => ?_⟩
    have wf1 := Memory.wf_write s.ram wf in0 d0
    have wf2 := Memory.wf_write _ wf1 in1 d1
    simp only [State.setRam_ram]
    rw [Memory.read_write _ wf2, if_neg h2, Memory.read_write _ wf1, if_neg h1, Memory.read_write _ wf, if_neg h0]

/-- Settles O33: the frames of the two storing instructions, each a fault or one write per data address. -/
theorem ramWritersFrame : Obligations.RamWritersFrame := by
  intro s t rX wf
  refine ⟨fun h => ?_, fun h => ?_⟩
  · obtain ⟨⟨regs, special, outputs, pc, lifecycle, rom⟩, ram⟩ := write_frame wf h
    exact ⟨regs, special, outputs, pc, lifecycle, rom, ram⟩
  · obtain ⟨⟨regs, special, outputs, pc, lifecycle, rom⟩, ram⟩ := convertToBase10_frame wf h
    exact ⟨regs, special, outputs, pc, lifecycle, rom, ram⟩

/-! ### Memory invariants (R50, R54) -/

/-- Settles O58: ROM is written by a `load` alone, whose image is canonical, and RAM by a `load`, which empties it, and
by a completed instruction, whose checked writes keep the form. -/
theorem memoriesStayCanonical : Obligations.MemoriesStayCanonical := by
  intro s t hrom hram h
  apply step_elim h (fun u => u.rom.wf = true ∧ u.ram.wf = true)
  case load => intro l b _ hb; exact ⟨Memory.wf_ofBytes b (hb.trans (by decide)), rfl⟩
  case run =>
    intro l i u _ _ _ hC
    obtain ⟨⟨hu, -⟩, -⟩ := completes_frame hC
    exact ⟨hu ▸ hrom, completes_ram_wf hC hram⟩
  all_goals intros; exact ⟨hrom, hram⟩

/-- At an address in range a data write fails by its bank check alone (R55, R57). -/
theorem memWrite_error_of_lt {s : State} {addr : Word} {v : Byte} {f : FatalError}
    (ha : addr.toNat < Config.memSize) (h : memWrite s addr v = .error f) : f = .romWrite addr := by
  cases hm : s.m with
  | false => rw [memWrite_in s v hm ha] at h; cases h
  | true => rw [memWrite_rom s addr v hm] at h; cases h; rfl

/-- Settles O60: a cycle starts only in `Running`, where the invariant keeps `pc` at most 4094, and `A` is below 4096. -/
theorem loadedMachineNeverFetchesOutOfRange : Obligations.LoadedMachineNeverFetchesOutOfRange := by
  intro s inv
  refine ⟨fun hc => ?_, ⟨_, memRead_in s inv.address.a_bound⟩, fun v f => memWrite_error_of_lt inv.address.a_bound⟩
  obtain ⟨hrun, -⟩ := (cycleStarts_iff s).1 hc
  have hpc : s.pc.toNat ≤ 4094 := inv.address.pc_live (by simp [hrun])
  exact ⟨_, fetch_in s (Nat.lt_of_le_of_lt (Nat.succ_le_succ hpc) (by decide))⟩

end Sys2Proof.Machine

namespace Sys2Proof.Machine

/-! PROOFS. The statements about the decoder and the encoder (30_encoding.md). `decodeWord_eq_some_iff` says once which
words stand for an instruction: those whose used bits make its canonical word. Last, where fatal errors come from (R89):
from an instruction that is not executable, always, and from no input but an instruction tick. -/

/-! ### The used bits of a word as a number (R88) -/

/-- A mask of the bits from `k` upward rounds the word's number down to a multiple of `2 ^ k`. -/
theorem toNat_and_bits_from (w : Word) (k : Nat) :
    (w &&& BitVec.allOnes 16 <<< k).toNat = w.toNat / 2 ^ k * 2 ^ k := by
  have hw := Nat.lt_of_le_of_lt (Nat.div_mul_le_self w.toNat (2 ^ k)) w.isLt
  rw [← BitVec.shiftLeft_ushiftRight, BitVec.toNat_shiftLeft, BitVec.toNat_ushiftRight, Nat.shiftRight_eq_div_pow,
    Nat.shiftLeft_eq, Nat.mod_eq_of_lt hw]

theorem and_FFFF (w : Word) : w &&& 0xFFFF#16 = w := BitVec.and_allOnes

theorem toNat_and_FFF0 (w : Word) : (w &&& 0xFFF0#16).toNat = w.toNat / 16 * 16 := toNat_and_bits_from w 4

theorem toNat_and_FF00 (w : Word) : (w &&& 0xFF00#16).toNat = w.toNat / 256 * 256 := toNat_and_bits_from w 8

theorem toNat_and_F000 (w : Word) : (w &&& 0xF000#16).toNat = w.toNat / 4096 * 4096 := toNat_and_bits_from w 12

/-! ### The operand forms (R81, R82): the used bits of a word are a packed word when its fields are the packed ones -/

section Forms

variable {w : Word} {op x y z : Nibble} {aaa : Addr12} {b : Byte}

theorem and_FFFF_eq_packNibbles_iff : w &&& 0xFFFF#16 = packNibbles op x y z ↔
    fieldOpcode w = op ∧ fieldRX w = x ∧ fieldRY w = y ∧ fieldRZ w = z := by
  simp only [← BitVec.toNat_inj, and_FFFF, toNat_packNibbles, toNat_fieldOpcode, toNat_fieldRX, toNat_fieldRY,
    toNat_fieldRZ]
  omega

theorem and_FFFF_eq_packAddr_iff : w &&& 0xFFFF#16 = packAddr op aaa ↔ fieldOpcode w = op ∧ fieldAAA w = aaa := by
  simp only [← BitVec.toNat_inj, and_FFFF, toNat_packAddr, toNat_fieldOpcode, toNat_fieldAAA]
  omega

theorem and_FFFF_eq_packLowByte_iff : w &&& 0xFFFF#16 = packLowByte op x b ↔
    fieldOpcode w = op ∧ fieldRX w = x ∧ fieldBB w = b := by
  simp only [← BitVec.toNat_inj, and_FFFF, toNat_packLowByte, toNat_fieldOpcode, toNat_fieldRX, toNat_fieldBB]
  omega

theorem and_FFF0_eq_packNibbles_iff : w &&& 0xFFF0#16 = packNibbles op x y 0x0#4 ↔
    fieldOpcode w = op ∧ fieldRX w = x ∧ fieldRY w = y := by
  simp only [← BitVec.toNat_inj, toNat_and_FFF0, toNat_packNibbles, toNat_fieldOpcode, toNat_fieldRX, toNat_fieldRY,
    BitVec.toNat_zero]
  omega

theorem and_FFF0_eq_packMiddleByte_iff : w &&& 0xFFF0#16 = packMiddleByte op b 0x0#4 ↔
    fieldOpcode w = op ∧ fieldTT .middle w = b := by
  simp only [← BitVec.toNat_inj, toNat_and_FFF0, toNat_packMiddleByte, toNat_fieldOpcode, toNat_fieldTT_middle,
    BitVec.toNat_zero]
  omega

theorem and_FF00_eq_packLowByte_iff : w &&& 0xFF00#16 = packLowByte op x 0x00#8 ↔
    fieldOpcode w = op ∧ fieldRX w = x := by
  simp only [← BitVec.toNat_inj, toNat_and_FF00, toNat_packLowByte, toNat_fieldOpcode, toNat_fieldRX,
    BitVec.toNat_zero]
  omega

theorem and_F000_eq_packAddr_iff : w &&& 0xF000#16 = packAddr op 0x000#12 ↔ fieldOpcode w = op := by
  simp only [← BitVec.toNat_inj, toNat_and_F000, toNat_packAddr, toNat_fieldOpcode, BitVec.toNat_zero]
  omega

end Forms

/-! ### Which words stand for an instruction (R85, R86, R88) -/

/-- A decoded word, with its unused bits cleared, is the canonical word of its instruction: one case per top nibble. -/
theorem and_usedBits_of_decodeWord {w : Word} {i : Instr} (h : decodeWord w = some i) :
    w &&& usedBits i = encode i := by
  by_cases hw : w = 0x0000#16
  · subst hw
    cases decodeWord_zero.symm.trans h
    rfl
  · rw [decodeWord_nonzero w hw] at h
    obtain ⟨hk, hop⟩ := BitVec.toNat_eq_nat.1 (toNat_fieldOpcode w)
    generalize w.toNat / 4096 = k at h hop hk
    interval_cases k <;> cases h
    · exact and_FFFF_eq_packLowByte_iff.2 ⟨hop, rfl, rfl⟩
    · exact and_FFFF_eq_packNibbles_iff.2 ⟨hop, rfl, rfl, rfl⟩
    · exact and_FFFF_eq_packNibbles_iff.2 ⟨hop, rfl, rfl, rfl⟩
    · exact and_FF00_eq_packLowByte_iff.2 ⟨hop, rfl⟩
    · exact and_FF00_eq_packLowByte_iff.2 ⟨hop, rfl⟩
    · exact and_FFFF_eq_packAddr_iff.2 ⟨hop, rfl⟩
    · exact and_FF00_eq_packLowByte_iff.2 ⟨hop, rfl⟩
    · exact and_F000_eq_packAddr_iff.2 hop
    · exact and_FFF0_eq_packNibbles_iff.2 ⟨hop, rfl, rfl⟩
    · exact and_FFF0_eq_packNibbles_iff.2 ⟨hop, rfl, rfl⟩
    · exact and_FFFF_eq_packAddr_iff.2 ⟨hop, rfl⟩
    · exact and_FFF0_eq_packMiddleByte_iff.2 ⟨hop, rfl⟩
    · exact and_FF00_eq_packLowByte_iff.2 ⟨hop, rfl⟩
    · exact and_FF00_eq_packLowByte_iff.2 ⟨hop, rfl⟩
    · exact and_FFF0_eq_packNibbles_iff.2 ⟨hop, rfl, rfl⟩
    · exact and_FFFF_eq_packNibbles_iff.2 ⟨hop, rfl, rfl, rfl⟩

/-- Every instruction uses its opcode bits (R88). -/
theorem fieldOpcode_of_and_usedBits {w : Word} {i : Instr} (h : w &&& usedBits i = encode i) :
    fieldOpcode w = i.opcode := by
  cases i with
  | halt => exact (and_FFFF_eq_packAddr_iff (aaa := 0x000#12).1 h).1
  | store => exact (and_FFFF_eq_packLowByte_iff.1 h).1
  | add | sub | draw => exact (and_FFFF_eq_packNibbles_iff.1 h).1
  | read | write | readKeyboard | readTimer | convertToBase10 => exact (and_FF00_eq_packLowByte_iff.1 h).1
  | jump | setAddress => exact (and_FFFF_eq_packAddr_iff.1 h).1
  | switchMemory => exact and_F000_eq_packAddr_iff.1 h
  | skipIfEqual | skipIfNotEqual | convertToAscii => exact (and_FFF0_eq_packNibbles_iff.1 h).1
  | setTimer => exact (and_FFF0_eq_packMiddleByte_iff.1 h).1

/-- HALT is the one well-formed instruction of the word 0x0000 (R87, R92). -/
theorem eq_halt_of_zero_and_usedBits {i : Instr} (wf : i.wellFormed = true) (h : 0x0000#16 &&& usedBits i = encode i) :
    i = .halt := by
  have hop : 0x0#4 = i.opcode := fieldOpcode_of_and_usedBits h
  cases i with
  | halt => rfl
  | store =>
    obtain ⟨-, rfl, rfl⟩ := and_FFFF_eq_packLowByte_iff.1 h
    cases wf
  | add | sub | read | write | jump | readKeyboard | switchMemory | skipIfEqual | skipIfNotEqual | setAddress
  | setTimer | readTimer | convertToBase10 | convertToAscii | draw => simp [Instr.opcode] at hop

/-- A word whose used bits are the canonical word of `i` decodes to `i`: its fields are the operands of `i`. -/
theorem decodeWord_of_and_usedBits {w : Word} {i : Instr} (wf : i.wellFormed = true) (h : w &&& usedBits i = encode i) :
    decodeWord w = some i := by
  by_cases hw : w = 0x0000#16
  · subst hw
    rw [eq_halt_of_zero_and_usedBits wf h, decodeWord_zero]
  · rw [decodeWord_nonzero w hw, ← toNat_fieldOpcode, fieldOpcode_of_and_usedBits h]
    cases i with
    | halt => exact absurd ((and_FFFF w).symm.trans h) hw
    | store => obtain ⟨-, rfl, rfl⟩ := and_FFFF_eq_packLowByte_iff.1 h; rfl
    | add | sub | draw => obtain ⟨-, rfl, rfl, rfl⟩ := and_FFFF_eq_packNibbles_iff.1 h; rfl
    | read | write | readKeyboard | readTimer | convertToBase10 =>
      obtain ⟨-, rfl⟩ := and_FF00_eq_packLowByte_iff.1 h; rfl
    | jump | setAddress => obtain ⟨-, rfl⟩ := and_FFFF_eq_packAddr_iff.1 h; rfl
    | switchMemory => rfl
    | skipIfEqual | skipIfNotEqual | convertToAscii => obtain ⟨-, rfl, rfl⟩ := and_FFF0_eq_packNibbles_iff.1 h; rfl
    | setTimer => obtain ⟨-, rfl⟩ := and_FFF0_eq_packMiddleByte_iff.1 h; rfl

/-- No word stands for `STORE r0, 0x00`, the one ill-formed instruction (R87). -/
theorem decodeWord_wellFormed {w : Word} {i : Instr} (h : decodeWord w = some i) : i.wellFormed = true := by
  by_contra wf
  obtain rfl : i = .store 0#4 0x00#8 := by cases i <;> simp_all [Instr.wellFormed]
  have hw : w = 0x0000#16 := (and_FFFF w).symm.trans (and_usedBits_of_decodeWord h)
  rw [hw, decodeWord_zero] at h
  cases h

theorem decodeWord_eq_some_iff (w : Word) (i : Instr) :
    decodeWord w = some i ↔ i.wellFormed = true ∧ w &&& usedBits i = encode i :=
  ⟨fun h => ⟨decodeWord_wellFormed h, and_usedBits_of_decodeWord h⟩,
    fun ⟨wf, h⟩ => decodeWord_of_and_usedBits wf h⟩

/-- The canonical word has its unused bits 0 (R88). -/
theorem encode_and_usedBits (i : Instr) : encode i &&& usedBits i = encode i := by
  apply BitVec.eq_of_toNat_eq
  cases i with
  | halt | store | add | sub | jump | setAddress | draw => exact congrArg _ (and_FFFF _)
  | read | write | readKeyboard | readTimer | convertToBase10 =>
    simp only [encode, usedBits, toNat_and_FF00, toNat_packLowByte, BitVec.toNat_zero]
    omega
  | skipIfEqual | skipIfNotEqual | convertToAscii =>
    simp only [encode, usedBits, toNat_and_FFF0, toNat_packNibbles, BitVec.toNat_zero]
    omega
  | setTimer =>
    simp only [encode, usedBits, Machine.params, toNat_and_FFF0, toNat_packMiddleByte, BitVec.toNat_zero]
    omega
  | switchMemory => rfl

/-! ### The fields as quotients and remainders (R81) -/

theorem fieldRX_eq (w : Word) : fieldRX w = BitVec.ofNat 4 (w.toNat / 256 % 16) :=
  (BitVec.toNat_eq_nat.1 (toNat_fieldRX w)).2

theorem fieldRY_eq (w : Word) : fieldRY w = BitVec.ofNat 4 (w.toNat / 16 % 16) :=
  (BitVec.toNat_eq_nat.1 (toNat_fieldRY w)).2

theorem fieldRZ_eq (w : Word) : fieldRZ w = BitVec.ofNat 4 (w.toNat % 16) :=
  (BitVec.toNat_eq_nat.1 (toNat_fieldRZ w)).2

theorem fieldAAA_eq (w : Word) : fieldAAA w = BitVec.ofNat 12 (w.toNat % 4096) :=
  (BitVec.toNat_eq_nat.1 (toNat_fieldAAA w)).2

theorem fieldBB_eq (w : Word) : fieldBB w = BitVec.ofNat 8 (w.toNat % 256) :=
  (BitVec.toNat_eq_nat.1 (toNat_fieldBB w)).2

/-- The immediate of SET_TIMER is bits 11:4 (R84). -/
theorem fieldTT_eq (w : Word) :
    fieldTT Machine.params.timerImmField w = BitVec.ofNat 8 (w.toNat / 16 % 256) :=
  (BitVec.toNat_eq_nat.1 (toNat_fieldTT_middle w)).2

/-! ### The round trip, the ignored bits and the HALT word (R87, R88, R92) -/

/-- Settles O2: the canonical word is its own used bits, and its two bytes make it again. -/
theorem decodeInvertsEncode : Obligations.DecodeInvertsEncode := by
  intro i wf
  have hd : decodeWord (encode i) = some i := (decodeWord_eq_some_iff _ i).2 ⟨wf, encode_and_usedBits i⟩
  refine ⟨hd, fun rest => ?_⟩
  show decode (highByte (encode i) :: lowByte (encode i) :: rest) = _
  simp [decode, hd]

/-- Settles O4: the used bits alone say which instruction a word stands for (`decodeWord_eq_some_iff`). -/
theorem unusedBitsAreIgnored : Obligations.UnusedBitsAreIgnored := by
  intro w w' i h used
  have hused : used = usedBits i := by cases i <;> rfl
  obtain ⟨wf, hw⟩ := (decodeWord_eq_some_iff w i).1 h
  rw [hused, hw]
  exact ⟨fun hw' => (decodeWord_eq_some_iff w' i).2 ⟨wf, hw'⟩, rfl⟩

/-- Settles O5: HALT uses all its bits, 0 is the top nibble of STORE, and what is decoded is well-formed. -/
theorem haltIsOneExactWord : Obligations.HaltIsOneExactWord := by
  refine ⟨fun w => ?_, fun w hlo hhi => ?_, fun w h => ?_⟩
  · refine ⟨fun h => ?_, fun h => h ▸ decodeWord_zero⟩
    exact (and_FFFF w).symm.trans (and_usedBits_of_decodeWord h)
  · have hw : w ≠ 0x0000#16 := by rintro rfl; simp at hlo
    rw [decodeWord_nonzero w hw, Nat.div_eq_of_lt (Nat.lt_succ_of_le hhi)]
    exact ⟨_, _, rfl⟩
  · cases decodeWord_wellFormed h

/-- Settles O3: every word but 0x0000 is read by its top nibble, its fields as numbers. -/
theorem decoderFollowsOpcodeMap : Obligations.DecoderFollowsOpcodeMap := by
  refine ⟨decodeWord_zero, fun w hw => ?_⟩
  have h := decodeWord_nonzero w hw
  simp only [fieldRX_eq, fieldRY_eq, fieldRZ_eq, fieldAAA_eq, fieldBB_eq, fieldTT_eq] at h
  exact h

/-- Settles O1, by running the decoder on each word. -/
theorem specWordsDecode : Obligations.SpecWordsDecode := by
  unfold Obligations.SpecWordsDecode
  decide

/-! ### A passed check means an executable field (R89) -/

theorem isReg_of_regIdx {f : Nibble} {d : RegIdx} (h : regIdx f = .ok d) : Nibble.isReg f = true := by
  rw [Nibble.isReg, regIdx_eq_ok.1 h, decide_eq_true d.isLt]

theorem isReg_of_reg {s : State} {f : Nibble} {v : Byte} (h : reg s f = .ok v) : Nibble.isReg f = true := by
  obtain ⟨d, hd, -⟩ := bind_eq_ok.1 h
  exact isReg_of_regIdx hd

theorem lt_of_literal_coords {rY rZ : Nibble} {c : Coord × Coord}
    (h : toCoords (rY.setWidth 8, rZ.setWidth 8) = .ok c) : rY.toNat < 8 ∧ rZ.toNat < 8 := by
  by_contra hn
  rw [toCoords_of_ge (by simp only [BitVec.toNat_setWidth]; omega)] at h
  cases h

/-- A fatal error, or what follows from the effects going through. -/
theorem fatal_or_of_finish {i : Instr} {s : State} {r : Except FatalError Effects} {P : Prop}
    (hx : exec i s = finish s r) (hP : ∀ e s', r = .ok e → applyAction e.action e.state = .ok s' → P) :
    (∃ f, exec i s = .next (takeFatal f s)) ∨ P := by
  rcases finish_cases s r with ⟨f, hf⟩ | ⟨e, s', hr, ha, -⟩
  · exact .inl ⟨f, hx.trans hf⟩
  · exact .inr (hP e s' hr ha)

/-- An instruction that raises nothing passed the check of each of its fields. -/
theorem exec_fatal_or_executable (i : Instr) (s : State) :
    (∃ f, exec i s = .next (takeFatal f s)) ∨ i.executable = true := by
  cases i with
  | halt | switchMemory | setAddress | setTimer => exact .inr rfl
  | store | read | readKeyboard | readTimer =>
    refine fatal_or_of_finish rfl fun e s' hr _ => ?_
    obtain ⟨d, hd, -⟩ := bind_eq_ok.1 hr
    exact isReg_of_regIdx hd
  | write | convertToBase10 =>
    refine fatal_or_of_finish rfl fun e s' hr _ => ?_
    obtain ⟨v, hv, -⟩ := bind_eq_ok.1 hr
    exact isReg_of_reg hv
  | skipIfEqual | skipIfNotEqual =>
    refine fatal_or_of_finish rfl fun e s' hr _ => ?_
    obtain ⟨a, ha, h⟩ := bind_eq_ok.1 hr
    obtain ⟨b, hb, -⟩ := bind_eq_ok.1 h
    simp [Instr.executable, isReg_of_reg ha, isReg_of_reg hb]
  | convertToAscii =>
    refine fatal_or_of_finish rfl fun e s' hr _ => ?_
    obtain ⟨v, hv, h⟩ := bind_eq_ok.1 hr
    obtain ⟨d, hd, -⟩ := bind_eq_ok.1 h
    simp [Instr.executable, isReg_of_reg hv, isReg_of_regIdx hd]
  | add | sub =>
    refine fatal_or_of_finish rfl fun e s' hr _ => ?_
    obtain ⟨a, ha, h⟩ := bind_eq_ok.1 hr
    obtain ⟨b, hb, h⟩ := bind_eq_ok.1 h
    obtain ⟨d, hd, -⟩ := bind_eq_ok.1 h
    simp [Instr.executable, isReg_of_reg ha, isReg_of_reg hb, isReg_of_regIdx hd]
  | jump aaa =>
    refine fatal_or_of_finish (r := .ok { state := s, action := .setPc aaa }) rfl fun e s' hr ha => ?_
    cases hr
    obtain ⟨u, hu, -⟩ := bind_eq_ok.1 ha
    simp [Instr.executable, require_eq_ok.1 hu]
  | draw rX rY rZ =>
    refine fatal_or_of_finish rfl fun e s' hr _ => ?_
    obtain ⟨v, hv, h⟩ := bind_eq_ok.1 hr
    obtain ⟨xy, hxy, h⟩ := bind_eq_ok.1 h
    obtain ⟨u, -, h⟩ := bind_eq_ok.1 h
    obtain ⟨c, hc, -⟩ := bind_eq_ok.1 h
    cases hxy
    obtain ⟨hY, hZ⟩ := lt_of_literal_coords hc
    simp [Instr.executable, isReg_of_reg hv, hY, hZ]

/-! ### Inputs other than an instruction tick raise nothing (R211) -/

/-- A host command leaves `cause` alone or records no error (R194 to R199, R252). -/
theorem hostCommand_keeps_faultFree (c : Command) {s : State} (hs : s.faultFree) : (hostCommand c s).faultFree := by
  unfold hostCommand
  split
  · cases c with
    | load bytes =>
      simp only [acceptCommand]
      split
      · simp [State.faultFree]
      · exact hs
    | start | pause | resume => exact hs
    | shutdown => simp [State.faultFree, acceptCommand]
  · exact hs

theorem perform_keeps_faultFree {q : Stimulus} (hq : q ≠ .instrTick) {s t : State} (hs : s.faultFree)
    (h : perform q s = .next t) : t.faultFree := by
  cases q with
  | instrTick => exact absurd rfl hq
  | timerTick => cases h; rw [(timerTick_access s).1]; exact hs
  | command c => cases h; exact hostCommand_keeps_faultFree c hs
  | keyReply k => cases h; rw [keyReply_access]; exact hs
  | subscribe r => cases h; rw [subscribe_access]; exact hs
  | unsubscribe r => cases h; rw [unsubscribe_access]; exact hs

theorem step_next (s : State) : ∃ t, step s = .next t := by
  cases hs : s.schedule with
  | nil => exact ⟨s, step_nil s hs⟩
  | cons q rest => rw [step_cons s hs]; exact perform_next q _

/-- Settles O42: `executable` is what the checks of an instruction test, and no other input writes a fatal cause. -/
theorem fatalErrorsComeFromInstructions : Obligations.FatalErrorsComeFromInstructions := by
  intro i s
  refine ⟨step_next s, exec_next i s, fun hi => ?_, fun q rest t hq hne hs h => ?_⟩
  · exact (exec_fatal_or_executable i s).resolve_right (by simp [hi])
  · rw [step_cons s hq] at h
    exact perform_keeps_faultFree hne (s := { s with schedule := rest }) hs h

end Sys2Proof.Machine

namespace Sys2Proof.Machine

/-! PROOFS. The statements about HALT, STORE, ADD and SUB (40_store_arith.md), and that the digits of CONVERT_TO_BASE10
spell the value (R104, R115). ADD and SUB share one rule: `arithEffects`, with the operation as a parameter. -/

/-! ### HALT (R100) -/

/-- A suppressed instruction tick does nothing (R38, R181). -/
theorem instructionTick_of_not_clocksRun {s : State} (h : s.clocksRun = false) : instructionTick s = .next s := by
  simp [instructionTick, State.cycleStarts, h]

/-- A suppressed timer tick does nothing (R38, R181). -/
theorem timerTick_of_not_clocksRun {s : State} (h : s.clocksRun = false) : timerTick s = s := by
  simp [timerTick, h]

/-- An instruction tick that starts a cycle inside ROM runs the instruction at `pc` (R142 to R146). -/
theorem instructionTick_of_readyToRun {s : State} {i : Instr} (ready : s.readyToRun) (next : s.nextInstr i) :
    instructionTick s = exec i s.advance := by
  obtain ⟨hls, hstop, hkbd, hpc⟩ := ready
  rw [instructionTick, if_pos ((cycleStarts_iff s).2 ⟨hls, hstop, hkbd⟩),
    cycle_in s hpc ((nextInstr_iff s i).1 next)]

/-- Two zero bytes at `pc` are HALT (R87). -/
theorem nextInstr_halt_of_zero {s : State} (hhi : s.rom.read s.pc.toNat = 0x00#8)
    (hlo : s.rom.read (s.pc.toNat + 1) = 0x00#8) : s.nextInstr .halt := by
  rw [nextInstr_iff, hhi, hlo]
  exact decodeWord_zero

theorem exec_halt (s : State) :
    exec .halt s = .next { s with
      haltPc := s.pc0, ls := .halted, cause := .cleanHalt, stopReq := true,
      trace := s.trace ++ [⟨.halt s.pc0, s.extSubs⟩] } := by
  simp [exec, execHalt]

/-- The whole tick that fetches two zero bytes (R100, R144). -/
theorem instructionTick_halt {s : State} (ready : s.readyToRun) (hhi : s.rom.read s.pc.toNat = 0x00#8)
    (hlo : s.rom.read (s.pc.toNat + 1) = 0x00#8) :
    instructionTick s = .next { s with
      pc := s.pc + 2#16, haltPc := s.pc, ls := .halted, cause := .cleanHalt, stopReq := true,
      trace := s.trace ++ [⟨.halt s.pc, s.extSubs⟩] } := by
  rw [instructionTick_of_readyToRun ready (nextInstr_halt_of_zero hhi hlo), exec_halt, State.pc0_advance]
  rfl

/-- Settles O12: `exec_halt` is the whole effect, and a state that is not `Running` suppresses both clocks. -/
theorem haltEndsTheRun : Obligations.HaltEndsTheRun := by
  refine ⟨decodeWord_zero, fun s => ⟨_, exec_halt s, rfl, ?_, ?_⟩, fun s rest hs ready hhi hlo => ?_⟩
  · exact instructionTick_of_not_clocksRun rfl
  · exact timerTick_of_not_clocksRun rfl
  · rw [step_cons s hs]
    exact instructionTick_halt (s := { s with schedule := rest }) ready hhi hlo

/-! ### Words by number (R81, R86) -/

/-- The word whose number is that of an instruction's canonical word decodes to the instruction (R92). -/
theorem decodeWord_ofNat_of_toNat_encode {i : Instr} {n : Nat} (wf : i.wellFormed = true)
    (hn : (encode i).toNat = n) : decodeWord (BitVec.ofNat 16 n) = some i := by
  rw [← hn, BitVec.ofNat_toNat, BitVec.setWidth_eq]
  exact (decodeInvertsEncode i wf).1

/-! ### STORE (R101) -/

/-- Settles O13: its word is its canonical one, and the index check is the one test before the write. -/
theorem storeWritesImmediate : Obligations.StoreWritesImmediate := by
  intro rX bb s
  refine ⟨fun hne => ?_, fun hX => ?_, fun x hx => ?_⟩
  · have wf : (Instr.store rX bb).wellFormed = true := by simpa [Instr.wellFormed, imp_iff_not_or] using hne
    exact decodeWord_ofNat_of_toNat_encode wf ((toNat_packLowByte 0x0#4 rX bb).trans (by simp [Nat.mul_comm]))
  · simp [exec, execStore, regIdx_of_ge hX]
  · simp [exec, execStore, regIdx_eq_ok.2 hx]

/-! ### ADD and SUB (R102, R103) -/

/-- The effects ADD and SUB share: two source registers, checked first, and a destination. -/
def arithEffects (op : Byte → Byte → Byte) (rX rY rZ : Nibble) (s : State) : Except FatalError Effects := do
  let a ← reg s rX
  let b ← reg s rY
  let d ← regIdx rZ
  return { state := s.setReg d (op a b) }

theorem exec_add (rX rY rZ : Nibble) (s : State) :
    exec (.add rX rY rZ) s = finish s (arithEffects addWrap rX rY rZ s) := rfl

theorem exec_sub (rX rY rZ : Nibble) (s : State) :
    exec (.sub rX rY rZ) s = finish s (arithEffects subClamp rX rY rZ s) := rfl

section Arith

variable (op : Byte → Byte → Byte) (s : State) {rX rY rZ : Nibble}

theorem finish_arith_first_ge (hX : 8 ≤ rX.toNat) :
    finish s (arithEffects op rX rY rZ s) = .next (takeFatal (.registerIndexRange rX) s) := by
  simp [arithEffects, reg_of_ge s hX]

theorem finish_arith_second_ge (hX : rX.toNat < 8) (hY : 8 ≤ rY.toNat) :
    finish s (arithEffects op rX rY rZ s) = .next (takeFatal (.registerIndexRange rY) s) := by
  simp [arithEffects, reg_of_lt s hX, reg_of_ge s hY]

theorem finish_arith_third_ge (hX : rX.toNat < 8) (hY : rY.toNat < 8) (hZ : 8 ≤ rZ.toNat) :
    finish s (arithEffects op rX rY rZ s) = .next (takeFatal (.registerIndexRange rZ) s) := by
  simp [arithEffects, reg_of_lt s hX, reg_of_lt s hY, regIdx_of_ge hZ]

theorem finish_arith_of_regs {x y z : RegIdx} (hX : rX.toNat = x) (hY : rY.toNat = y) (hZ : rZ.toNat = z) :
    finish s (arithEffects op rX rY rZ s) = .next (s.setReg z (op (s.reg x) (s.reg y))) := by
  simp [arithEffects, reg_of_toNat_eq s hX, reg_of_toNat_eq s hY, regIdx_eq_ok.2 hZ]

end Arith

theorem addWrap_eq_ofNat (a b : Byte) : addWrap a b = BitVec.ofNat 8 ((a.toNat + b.toNat) % 256) :=
  BitVec.eq_of_toNat_eq (by simp [addWrap])

theorem subClamp_eq_ofNat (a b : Byte) : subClamp a b = BitVec.ofNat 8 (a.toNat - b.toNat) := by
  unfold subClamp
  split
  · next h => exact BitVec.eq_of_toNat_eq (by rw [BitVec.toNat_sub_of_le h, BitVec.toNat_ofNat]; omega)
  · next h => rw [Nat.sub_eq_zero_of_le (Nat.le_of_not_le h)]

/-- Settles O14: the rule ADD shares with SUB, and `addWrap` as a number. -/
theorem addWrapsModulo256 : Obligations.AddWrapsModulo256 := by
  intro rX rY rZ s
  rw [exec_add]
  refine ⟨?_, finish_arith_first_ge _ s, finish_arith_second_ge _ s, finish_arith_third_ge _ s,
    fun x y z hX hY hZ => ?_⟩
  · exact decodeWord_ofNat_of_toNat_encode rfl ((toNat_packNibbles 0x1#4 rX rY rZ).trans (by simp [Nat.mul_comm]))
  · rw [finish_arith_of_regs _ s hX hY hZ, addWrap_eq_ofNat]

/-- Settles O15: the rule SUB shares with ADD, and `subClamp` as a number. -/
theorem subClampsAtZero : Obligations.SubClampsAtZero := by
  intro rX rY rZ s
  rw [exec_sub]
  refine ⟨?_, finish_arith_first_ge _ s, finish_arith_second_ge _ s, finish_arith_third_ge _ s,
    fun x y z hX hY hZ => ?_⟩
  · exact decodeWord_ofNat_of_toNat_encode rfl ((toNat_packNibbles 0x2#4 rX rY rZ).trans (by simp [Nat.mul_comm]))
  · rw [finish_arith_of_regs _ s hX hY hZ, subClamp_eq_ofNat]

/-! ### The decimal digits (R104, R115) -/

theorem toNat_hundreds (v : Byte) : (hundreds v).toNat = v.toNat / 100 := by
  rw [hundreds, BitVec.toNat_ofNat]
  omega

theorem toNat_tens (v : Byte) : (tens v).toNat = v.toNat / 10 % 10 := by
  rw [tens, BitVec.toNat_ofNat]
  omega

theorem toNat_ones (v : Byte) : (ones v).toNat = v.toNat % 10 := by
  rw [ones, BitVec.toNat_ofNat]
  omega

/-- The three digits of a byte spell it (R104). -/
theorem digits_spell (v : Byte) : 100 * (hundreds v).toNat + 10 * (tens v).toNat + (ones v).toNat = v.toNat ∧
    (hundreds v).toNat ≤ 2 ∧ (tens v).toNat ≤ 9 ∧ (ones v).toNat ≤ 9 := by
  have := v.isLt
  rw [toNat_hundreds, toNat_tens, toNat_ones]
  omega

/-- Three bytes written from address `a` up. -/
def Memory.writeThree (m : Memory) (a : Nat) (v0 v1 v2 : Byte) : Memory :=
  ((m.write a v0).write (a + 1) v1).write (a + 2) v2

/-- Three bytes written from an address up are read back (R57, R63). -/
theorem Memory.read_writeThree (m : Memory) (wf : m.wf = true) {a : Nat} (ha : a + 2 < Config.memSize)
    (v0 v1 v2 : Byte) :
    (m.writeThree a v0 v1 v2).read a = v0 ∧ (m.writeThree a v0 v1 v2).read (a + 1) = v1 ∧
      (m.writeThree a v0 v1 v2).read (a + 2) = v2 := by
  have wf1 := Memory.wf_write m wf (a := a) (by omega) v0
  have wf2 := Memory.wf_write _ wf1 (a := a + 1) (by omega) v1
  simp [Memory.writeThree, Memory.read_write _ wf2, Memory.read_write _ wf1, Memory.read_write _ wf]

/-- A data address that does not wrap around is the sum (R53, R116). -/
theorem toNat_dataAddr {s : State} {k : Word} (h : s.a.toNat + k.toNat < 65536) :
    (dataAddr s k).toNat = s.a.toNat + k.toNat :=
  BitVec.toNat_add_of_lt h

/-- CONVERT_TO_BASE10 with RAM selected and all three addresses in range (R115). -/
theorem exec_convertToBase10_ram (s : State) {rX : Nibble} {x : RegIdx} (hx : rX.toNat = x) (hm : s.m = false)
    (ha : s.a.toNat < 4094) :
    exec (.convertToBase10 rX) s = .next { s with
      ram := s.ram.writeThree s.a.toNat (hundreds (s.reg x)) (tens (s.reg x)) (ones (s.reg x)) } := by
  have inRange : ∀ k ≤ 2, s.a.toNat + k < Config.memSize := fun k hk => Nat.add_lt_add_of_lt_of_le ha hk
  have h1 : (dataAddr s 1#16).toNat = s.a.toNat + 1 := toNat_dataAddr ((inRange 1 (by decide)).trans (by decide))
  have h2 : (dataAddr s 2#16).toNat = s.a.toNat + 2 := toNat_dataAddr ((inRange 2 le_rfl).trans (by decide))
  have c0 := checkWrite_in s hm (inRange 0 (by decide))
  have c1 := checkWrite_in s (addr := dataAddr s 1#16) hm (h1 ▸ inRange 1 (by decide))
  have c2 := checkWrite_in s (addr := dataAddr s 2#16) hm (h2 ▸ inRange 2 le_rfl)
  simp [exec, execConvertToBase10, reg_of_toNat_eq s hx, c0, c1, c2, State.setRam, h1, h2, Memory.writeThree]

/-- Settles O21: the bytes read back are the three digits (`Memory.read_writeThree`), which spell the value. -/
theorem base10DigitsSpellTheValue : Obligations.Base10DigitsSpellTheValue := by
  intro rX s x hx wf hm ha
  obtain ⟨r0, r1, r2⟩ := Memory.read_writeThree s.ram wf (Nat.add_lt_add_right ha 2) (hundreds (s.reg x))
    (tens (s.reg x)) (ones (s.reg x))
  refine ⟨_, exec_convertToBase10_ram s hx hm ha, ?_⟩
  rw [r0, r1, r2]
  exact digits_spell (s.reg x)

end Sys2Proof.Machine

namespace Sys2Proof.Machine

/-! PROOFS. The statements about READ, WRITE, SWITCH_MEMORY, SET_ADDRESS and CONVERT_TO_BASE10 (41_memory_ops.md): their
words, with anything in the unused bits, and one lemma per outcome of an instruction. -/

/-! ### Words by number, with unused bits (R88) -/

/-- A word decodes to the instruction whose canonical word its used bits make, whatever its unused bits are (R88). -/
theorem decodeWord_ofNat_of_and_usedBits {i : Instr} {w : Word} {n : Nat} (wf : i.wellFormed = true)
    (hw : w &&& usedBits i = encode i) (hn : w.toNat = n) : decodeWord (BitVec.ofNat 16 n) = some i := by
  rw [← hn, BitVec.ofNat_toNat, BitVec.setWidth_eq]
  exact decodeWord_of_and_usedBits wf hw

theorem packLowByte_and_FF00 (op x : Nibble) (low : Byte) :
    packLowByte op x low &&& 0xFF00#16 = packLowByte op x 0x00#8 := by
  apply BitVec.eq_of_toNat_eq
  simp only [toNat_and_FF00, toNat_packLowByte, BitVec.toNat_zero]
  omega

theorem packAddr_and_F000 (op : Nibble) (low : Addr12) : packAddr op low &&& 0xF000#16 = packAddr op 0x000#12 := by
  apply BitVec.eq_of_toNat_eq
  simp only [toNat_and_F000, toNat_packAddr, BitVec.toNat_zero]
  omega

/-- The words of an instruction with one register field and an unused low byte. -/
theorem decodeWord_ofNat_of_one_field {i : Instr} {rX : Nibble} (op : Nibble) (wf : i.wellFormed = true)
    (he : encode i = packLowByte op rX 0x00#8) (hu : usedBits i = 0xFF00#16) (low : Byte) :
    decodeWord (BitVec.ofNat 16 (4096 * op.toNat + 256 * rX.toNat + low.toNat)) = some i := by
  refine decodeWord_ofNat_of_and_usedBits wf (w := packLowByte op rX low) ?_ ?_
  · rw [hu, he, packLowByte_and_FF00]
  · rw [toNat_packLowByte, Nat.mul_comm op.toNat, Nat.mul_comm rX.toNat]

/-! ### READ (R110) -/

theorem exec_read_field_ge (s : State) {rX : Nibble} (hX : 8 ≤ rX.toNat) :
    exec (.read rX) s = .next (takeFatal (.registerIndexRange rX) s) := by
  simp [exec, execRead, regIdx_of_ge hX]

theorem exec_read_out (s : State) {rX : Nibble} {x : RegIdx} (hx : rX.toNat = x) (ha : Config.memSize ≤ s.a.toNat) :
    exec (.read rX) s = .next (takeFatal (.addressOutOfRange s.a) s) := by
  simp [exec, execRead, regIdx_eq_ok.2 hx, memRead_out s (Nat.not_lt.2 ha)]

theorem exec_read_rom (s : State) {rX : Nibble} {x : RegIdx} (hx : rX.toNat = x) (hm : s.m = true)
    (ha : s.a.toNat < Config.memSize) : exec (.read rX) s = .next (s.setReg x (s.rom.read s.a.toNat)) := by
  simp [exec, execRead, regIdx_eq_ok.2 hx, memRead_in s ha, hm]

/-- Settles O16: the index check, the range check, then one lemma per bank. -/
theorem readLoadsFromSelectedBank : Obligations.ReadLoadsFromSelectedBank := by
  intro rX s
  refine ⟨decodeWord_ofNat_of_one_field 0x3#4 rfl rfl rfl, exec_read_field_ge s, fun x hx => ?_⟩
  exact ⟨exec_read_out s hx, fun ha hm => exec_read_ram s hx hm ha, fun ha hm => exec_read_rom s hx hm ha⟩

/-! ### WRITE (R111) -/

theorem exec_write_field_ge (s : State) {rX : Nibble} (hX : 8 ≤ rX.toNat) :
    exec (.write rX) s = .next (takeFatal (.registerIndexRange rX) s) := by
  simp [exec, execWrite, reg_of_ge s hX]

theorem exec_write_out (s : State) {rX : Nibble} {x : RegIdx} (hx : rX.toNat = x) (hm : s.m = false)
    (ha : Config.memSize ≤ s.a.toNat) : exec (.write rX) s = .next (takeFatal (.addressOutOfRange s.a) s) := by
  simp [exec, execWrite, reg_of_toNat_eq s hx, memWrite_out s _ hm (Nat.not_lt.2 ha)]

/-- Settles O17: the index check, the bank check, the range check, then the one byte stored. -/
theorem writeStoresRegisterInRam : Obligations.WriteStoresRegisterInRam := by
  intro rX s
  refine ⟨decodeWord_ofNat_of_one_field 0x4#4 rfl rfl rfl, exec_write_field_ge s, fun x hx => ?_⟩
  exact ⟨exec_write_rom s hx, exec_write_out s hx, exec_write_ram s hx⟩

/-! ### SWITCH_MEMORY and SET_ADDRESS (R112, R114) -/

theorem exec_switchMemory (s : State) :
    exec .switchMemory s = .next { s with m := !s.m, trace := s.trace ++ [⟨.switchMemory, s.extSubs⟩] } := by
  simp [exec, execSwitchMemory]

theorem exec_setAddress (aaa : Addr12) (s : State) :
    exec (.setAddress aaa) s = .next { s with a := zextAddr aaa } := by
  simp [exec, execSetAddress]

theorem zextAddr_eq_ofNat (aaa : Addr12) : zextAddr aaa = BitVec.ofNat 16 aaa.toNat :=
  (BitVec.toNat_eq_nat.1 (toNat_zextAddr aaa)).2

/-- Settles O18: only the opcode bits are used, and the event's CPU handler makes the flip (`publish_switchMemory`). -/
theorem switchMemoryFlipsBank : Obligations.SwitchMemoryFlipsBank := fun s =>
  ⟨fun low => decodeWord_ofNat_of_and_usedBits rfl (packAddr_and_F000 0x7#4 low) (toNat_packAddr 0x7#4 low),
    exec_switchMemory s⟩

/-- Settles O19: its word is its canonical one, and zero extension keeps the number. -/
theorem setAddressZeroExtends : Obligations.SetAddressZeroExtends := by
  intro aaa s
  refine ⟨decodeWord_ofNat_of_toNat_encode rfl (toNat_packAddr 0xA#4 aaa), ?_⟩
  rw [exec_setAddress, zextAddr_eq_ofNat]

/-! ### CONVERT_TO_BASE10 (R115, R116) -/

theorem exec_convertToBase10_field_ge (s : State) {rX : Nibble} (hX : 8 ≤ rX.toNat) :
    exec (.convertToBase10 rX) s = .next (takeFatal (.registerIndexRange rX) s) := by
  simp [exec, execConvertToBase10, reg_of_ge s hX]

section Base10

variable (s : State) {rX : Nibble} {x : RegIdx} (hx : rX.toNat = x)
include hx

/-- A failed check at `A` is the fault: it comes before the checks at `A + 1` and `A + 2`. -/
theorem exec_convertToBase10_error {f : FatalError} (h : checkWrite s s.a = .error f) :
    exec (.convertToBase10 rX) s = .next (takeFatal f s) := by
  simp [exec, execConvertToBase10, reg_of_toNat_eq s hx, h]

/-- With the first address in range and the third not, the first address out of range is 4096: it is `A + 2` when `A` is
4094 and `A + 1` when `A` is 4095. -/
theorem exec_convertToBase10_straddling (hm : s.m = false) (hlo : 4094 ≤ s.a.toNat) (hhi : s.a.toNat < 4096) :
    exec (.convertToBase10 rX) s = .next (takeFatal (.addressOutOfRange 4096#16) s) := by
  have c0 : checkWrite s s.a = .ok () := checkWrite_in s hm hhi
  have out : checkWrite s 4096#16 = .error (.addressOutOfRange 4096#16) := checkWrite_out s hm (by decide)
  obtain ha | ha : s.a = 4094#16 ∨ s.a = 4095#16 := by bv_omega
  · have d1 : dataAddr s 1#16 = 4095#16 := by rw [dataAddr, ha]; rfl
    have d2 : dataAddr s 2#16 = 4096#16 := by rw [dataAddr, ha]; rfl
    have c1 : checkWrite s 4095#16 = .ok () := checkWrite_in s hm (by decide)
    simp [exec, execConvertToBase10, reg_of_toNat_eq s hx, c0, d1, c1, d2, out]
  · have d1 : dataAddr s 1#16 = 4096#16 := by rw [dataAddr, ha]; rfl
    simp [exec, execConvertToBase10, reg_of_toNat_eq s hx, c0, d1, out]

end Base10

/-- Settles O20: the index check, then the checks at the three addresses, the first that fails giving the fault, and
three stores when none does. -/
theorem base10StoresThreeDigits : Obligations.Base10StoresThreeDigits := by
  intro rX s
  refine ⟨decodeWord_ofNat_of_one_field 0xD#4 rfl rfl rfl, exec_convertToBase10_field_ge s, fun x hx => ?_⟩
  refine ⟨fun hm => ?_, fun hm ha => ?_, exec_convertToBase10_straddling s hx, exec_convertToBase10_ram s hx⟩
  · exact exec_convertToBase10_error s hx (checkWrite_rom s s.a hm)
  · exact exec_convertToBase10_error s hx (checkWrite_out s hm (Nat.not_lt.2 ha))

end Sys2Proof.Machine

namespace Sys2Proof.Machine

/-! PROOFS. The statements about JUMP, SKIP_IF_EQUAL and SKIP_IF_NOT_EQUAL (42_control.md): the frame they share, then what
becomes of `pc`. The two skips differ in their test alone, so their rules are stated once, for any test. -/

/-! ### The frame (R120) -/

/-- Writing `pc` changes nothing else (R26). -/
theorem pcUpdate_frame (s : State) (p : Word) :
    sameRegs s { s with pc := p } ∧ sameMemory s { s with pc := p } ∧ sameSpecial s { s with pc := p } ∧
      sameOutputs s { s with pc := p } ∧ sameLifecycle s { s with pc := p } :=
  ⟨fun _ => rfl, fun _ => ⟨rfl, rfl⟩, ⟨rfl, rfl, rfl, rfl, rfl, rfl⟩, ⟨rfl, rfl, rfl, rfl⟩, rfl, rfl, rfl⟩

/-- A completed JUMP or skip has written `pc` at most. -/
theorem completes_controlTransfer {i : Instr} {s t : State}
    (hi : (∃ aaa, i = .jump aaa) ∨ (∃ rX rY, i = .skipIfEqual rX rY) ∨ (∃ rX rY, i = .skipIfNotEqual rX rY))
    (h : Completes i s t) : ∃ p, t = { s with pc := p } := by
  rcases hi with ⟨aaa, rfl⟩ | ⟨rX, rY, rfl⟩ | ⟨rX, rY, rfl⟩
  · exact ⟨_, h.2⟩
  all_goals
    rcases h with rfl | rfl
    · exact ⟨_, rfl⟩
    · exact ⟨_, rfl⟩

/-- Settles O34: a fault keeps everything but the lifecycle records, and a completed instruction everything but `pc`. -/
theorem controlTransferFrame : Obligations.ControlTransferFrame := by
  intro i s t hi h
  rcases cases_of_exec h with ⟨f, rfl⟩ | hC
  · obtain ⟨regs, mem, special, outputs⟩ := takeFatal_frame f s
    exact ⟨regs, mem, special, outputs, .inr ⟨f, rfl⟩⟩
  · obtain ⟨p, rfl⟩ := completes_controlTransfer hi hC
    obtain ⟨regs, mem, special, outputs, lifecycle⟩ := pcUpdate_frame s p
    exact ⟨regs, mem, special, outputs, .inl lifecycle⟩

/-! ### JUMP (R121) -/

theorem exec_jump_even {aaa : Addr12} (s : State) (h : aaa.toNat % 2 = 0) :
    exec (.jump aaa) s = .next { s with pc := zextAddr aaa } :=
  finish_setPc_even s s [] h

theorem exec_jump_odd {aaa : Addr12} (s : State) (h : aaa.toNat % 2 = 1) :
    exec (.jump aaa) s = .next (takeFatal (.oddJumpTarget aaa) s) :=
  finish_setPc_odd s s [] h

/-- Settles O22: its word is its canonical one, and the parity of the target decides between `pc` and the fault. -/
theorem jumpSetsPcOrFaults : Obligations.JumpSetsPcOrFaults := by
  intro aaa s
  refine ⟨decodeWord_ofNat_of_toNat_encode rfl (toNat_packAddr 0x5#4 aaa), fun h => ?_, exec_jump_odd s⟩
  rw [exec_jump_even s h, zextAddr_eq_ofNat]

/-! ### The skips (R122, R123) -/

theorem packNibbles_and_FFF0 (op x y low : Nibble) :
    packNibbles op x y low &&& 0xFFF0#16 = packNibbles op x y 0x0#4 := by
  apply BitVec.eq_of_toNat_eq
  simp only [toNat_and_FFF0, toNat_packNibbles, BitVec.toNat_zero]
  omega

/-- The words of an instruction with two register fields and an unused low nibble (R88). -/
theorem decodeWord_ofNat_of_two_fields {i : Instr} {rX rY : Nibble} (op : Nibble) (wf : i.wellFormed = true)
    (he : encode i = packNibbles op rX rY 0x0#4) (hu : usedBits i = 0xFFF0#16) (low : Nibble) :
    decodeWord (BitVec.ofNat 16 (4096 * op.toNat + 256 * rX.toNat + 16 * rY.toNat + low.toNat)) = some i := by
  refine decodeWord_ofNat_of_and_usedBits wf (w := packNibbles op rX rY low) ?_ ?_
  · rw [hu, he, packNibbles_and_FFF0]
  · rw [toNat_packNibbles, Nat.mul_comm op.toNat, Nat.mul_comm rX.toNat, Nat.mul_comm rY.toNat]

/-- The effects of a skip: two source registers, checked in order, and the PC action their test decides. -/
def skipEffects (test : Byte → Byte → Bool) (rX rY : Nibble) (s : State) : Except FatalError Effects := do
  let a ← reg s rX
  let b ← reg s rY
  return { state := s, action := skipAction (test a b) }

theorem exec_skipIfEqual (rX rY : Nibble) (s : State) :
    exec (.skipIfEqual rX rY) s = finish s (skipEffects equalBytes rX rY s) := rfl

theorem exec_skipIfNotEqual (rX rY : Nibble) (s : State) :
    exec (.skipIfNotEqual rX rY) s = finish s (skipEffects (fun a b => !equalBytes a b) rX rY s) := rfl

section Skip

variable (test : Byte → Byte → Bool) (s : State) {rX rY : Nibble}

theorem finish_skipEffects_first_ge (hX : 8 ≤ rX.toNat) :
    finish s (skipEffects test rX rY s) = .next (takeFatal (.registerIndexRange rX) s) := by
  simp [skipEffects, reg_of_ge s hX]

theorem finish_skipEffects_second_ge (hX : rX.toNat < 8) (hY : 8 ≤ rY.toNat) :
    finish s (skipEffects test rX rY s) = .next (takeFatal (.registerIndexRange rY) s) := by
  simp [skipEffects, reg_of_lt s hX, reg_of_ge s hY]

theorem finish_skipEffects_of_regs {x y : RegIdx} (hX : rX.toNat = x) (hY : rY.toNat = y) :
    finish s (skipEffects test rX rY s) =
      .next (if test (s.reg x) (s.reg y) then { s with pc := s.pc + 2#16 } else s) := by
  simp [skipEffects, reg_of_toNat_eq s hX, reg_of_toNat_eq s hY, finish_skip]

end Skip

/-- Settles O23: the rules of a skip, with equality as its test. -/
theorem skipIfEqualSkipsOneWord : Obligations.SkipIfEqualSkipsOneWord := by
  intro rX rY s
  rw [exec_skipIfEqual]
  refine ⟨decodeWord_ofNat_of_two_fields 0x8#4 rfl rfl rfl, finish_skipEffects_first_ge _ s,
    finish_skipEffects_second_ge _ s, fun x y hX hY => ?_⟩
  rw [finish_skipEffects_of_regs _ s hX hY]
  exact ⟨fun h => by simp [equalBytes, h], fun h => by simp [equalBytes, h]⟩

/-- Settles O24: the rules of a skip, with inequality as its test. -/
theorem skipIfNotEqualSkipsOneWord : Obligations.SkipIfNotEqualSkipsOneWord := by
  intro rX rY s
  rw [exec_skipIfNotEqual]
  refine ⟨decodeWord_ofNat_of_two_fields 0x9#4 rfl rfl rfl, finish_skipEffects_first_ge _ s,
    finish_skipEffects_second_ge _ s, fun x y hX hY => ?_⟩
  rw [finish_skipEffects_of_regs _ s hX hY]
  exact ⟨fun h => by simp [equalBytes, h], fun h => by simp [equalBytes, h]⟩

end Sys2Proof.Machine

namespace Sys2Proof.Machine

/-! PROOFS. The statements about READ_KEYBOARD, SET_TIMER, READ_TIMER, CONVERT_TO_ASCII and DRAW (43_io_timer_convert.md):
one lemma per outcome of an instruction. Those of DRAW are stated once, for either meaning of its coordinate fields. -/

/-! ### READ_KEYBOARD (R130, R37) -/

theorem exec_readKeyboard_field_ge (s : State) {rX : Nibble} (hX : 8 ≤ rX.toNat) :
    exec (.readKeyboard rX) s = .next (takeFatal (.registerIndexRange rX) s) := by
  simp [exec, execReadKeyboard, regIdx_of_ge hX]

theorem exec_readKeyboard (s : State) {rX : Nibble} {x : RegIdx} (hx : rX.toNat = x) :
    exec (.readKeyboard rX) s = .next (readKey x s) := by
  simp [exec, execReadKeyboard, regIdx_eq_ok.2 hx]

theorem readKey_answered {s : State} {k : Byte} {rest : List Stimulus} (x : RegIdx)
    (h : s.schedule = .keyReply k :: rest) : readKey x s = { s.setReg x k with schedule := rest } := by
  simp [readKey, h]

theorem readKey_waits {s : State} (x : RegIdx) (h : ∀ k rest, s.schedule ≠ .keyReply k :: rest) :
    readKey x s = { s with kbdWait := some x } :=
  (readKey_cases x s).resolve_left fun ⟨k, rest, hs, _⟩ => h k rest hs

/-- Settles O36: a fault changes the lifecycle records only; an answer writes the destination and takes the reply; a wait
changes `kbdWait` only. -/
theorem readKeyboardFrame : Obligations.ReadKeyboardFrame := by
  intro rX s t h
  rcases Nat.lt_or_ge rX.toNat 8 with hX | hX
  · rw [exec_readKeyboard s (x := ⟨rX.toNat, hX⟩) rfl] at h
    cases h
    rcases readKey_cases ⟨rX.toNat, hX⟩ s with ⟨k, rest, hs, e⟩ | e <;> rw [e]
    · obtain ⟨regs, mem, -, -, lifecycle⟩ := setReg_frame s ⟨rX.toNat, hX⟩ k
      exact ⟨fun r hr => regs r fun hd => hr (congrArg Fin.val hd), mem, rfl, rfl, rfl, rfl, rfl, rfl, rfl, rfl, rfl,
        .inl lifecycle, .inr ⟨k, hs⟩⟩
    · exact ⟨fun _ _ => rfl, fun _ => ⟨rfl, rfl⟩, rfl, rfl, rfl, rfl, rfl, rfl, rfl, rfl, rfl,
        .inl ⟨rfl, rfl, rfl⟩, .inl rfl⟩
  · rw [exec_readKeyboard_field_ge s hX] at h
    cases h
    obtain ⟨regs, mem, -, -⟩ := takeFatal_frame (.registerIndexRange rX) s
    exact ⟨fun r _ => regs r, mem, rfl, rfl, rfl, rfl, rfl, rfl, rfl, rfl, rfl, .inr ⟨_, rfl⟩, .inl rfl⟩

/-- Settles O25: the index check, then `readKey`, whose next input decides between the byte and the wait. -/
theorem readKeyboardTakesTheByteOrWaits : Obligations.ReadKeyboardTakesTheByteOrWaits := by
  intro rX s
  refine ⟨decodeWord_ofNat_of_one_field 0x6#4 rfl rfl rfl, exec_readKeyboard_field_ge s, fun x hx => ?_⟩
  rw [exec_readKeyboard s hx]
  exact ⟨fun k rest hs => by rw [readKey_answered x hs], fun hs => by rw [readKey_waits x hs]⟩

/-! ### SET_TIMER and READ_TIMER (R131, R132) -/

theorem packMiddleByte_and_FFF0 (op : Nibble) (b : Byte) (low : Nibble) :
    packMiddleByte op b low &&& 0xFFF0#16 = packMiddleByte op b 0x0#4 := by
  apply BitVec.eq_of_toNat_eq
  simp only [toNat_and_FFF0, toNat_packMiddleByte, BitVec.toNat_zero]
  omega

theorem exec_setTimer (tt : Byte) (s : State) :
    exec (.setTimer tt) s = .next { s with t := tt, trace := s.trace ++ [⟨.timerSet tt, s.extSubs⟩] } := by
  simp [exec, execSetTimer]

/-- Settles O27: the immediate is the middle byte, and the event's CPU handler writes `T` (`publish_timerSet`). -/
theorem setTimerSetsTAndPublishes : Obligations.SetTimerSetsTAndPublishes := by
  intro tt s
  refine ⟨fun low => ?_, exec_setTimer tt s⟩
  refine decodeWord_ofNat_of_and_usedBits rfl (packMiddleByte_and_FFF0 0xB#4 tt low) ?_
  rw [toNat_packMiddleByte, Nat.mul_comm tt.toNat]
  rfl

theorem exec_readTimer_field_ge (s : State) {rX : Nibble} (hX : 8 ≤ rX.toNat) :
    exec (.readTimer rX) s = .next (takeFatal (.registerIndexRange rX) s) := by
  simp [exec, execReadTimer, regIdx_of_ge hX]

theorem exec_readTimer (s : State) {rX : Nibble} {x : RegIdx} (hx : rX.toNat = x) :
    exec (.readTimer rX) s = .next (s.setReg x s.t) := by
  simp [exec, execReadTimer, regIdx_eq_ok.2 hx]

/-- Settles O28: the index check, then one write of `T` to the destination. -/
theorem readTimerCopiesT : Obligations.ReadTimerCopiesT := fun _ s =>
  ⟨decodeWord_ofNat_of_one_field 0xC#4 rfl rfl rfl, exec_readTimer_field_ge s, fun _ hx => exec_readTimer s hx⟩

/-! ### CONVERT_TO_ASCII (R133, R135) -/

theorem asciiDigit_of_le (base : Byte) {v : Byte} (h : v.toNat ≤ 9) :
    asciiDigit base v = BitVec.ofNat 8 (0x30 + v.toNat) := by
  rw [asciiDigit, if_pos h, BitVec.ofNat_add, BitVec.ofNat_toNat, BitVec.setWidth_eq]

theorem asciiDigit_of_gt (base : Byte) {v : Byte} (h : 9 < v.toNat) :
    asciiDigit base v = BitVec.ofNat 8 (base.toNat + (v.toNat - 10)) := by
  rw [asciiDigit, if_neg (Nat.not_le.2 h)]
  bv_omega

theorem exec_convertToAscii_first_ge (s : State) {rX rY : Nibble} (hX : 8 ≤ rX.toNat) :
    exec (.convertToAscii rX rY) s = .next (takeFatal (.registerIndexRange rX) s) := by
  simp [exec, execConvertToAscii, reg_of_ge s hX]

theorem exec_convertToAscii_second_ge (s : State) {rX rY : Nibble} (hX : rX.toNat < 8) (hY : 8 ≤ rY.toNat) :
    exec (.convertToAscii rX rY) s = .next (takeFatal (.registerIndexRange rY) s) := by
  simp [exec, execConvertToAscii, reg_of_lt s hX, regIdx_of_ge hY]

section Ascii

variable (s : State) {rX rY : Nibble} {x y : RegIdx} (hx : rX.toNat = x) (hy : rY.toNat = y)
include hx hy

theorem exec_convertToAscii_value_gt (hv : 15 < (s.reg x).toNat) :
    exec (.convertToAscii rX rY) s = .next (takeFatal (.asciiRange (s.reg x)) s) := by
  simp [exec, execConvertToAscii, reg_of_toNat_eq s hx, regIdx_eq_ok.2 hy, require_neg _ (Nat.not_le.2 hv)]

theorem exec_convertToAscii_digit (hv : (s.reg x).toNat ≤ 15) :
    exec (.convertToAscii rX rY) s = .next (s.setReg y (asciiDigit params.hexAlphaBase (s.reg x))) := by
  simp [exec, execConvertToAscii, reg_of_toNat_eq s hx, regIdx_eq_ok.2 hy, require_pos _ hv]

end Ascii

/-- Settles O29: the two index checks, the value check, then the digit, which `asciiDigit` codes in two ranges. -/
theorem convertToAsciiWritesTheDigit : Obligations.ConvertToAsciiWritesTheDigit := by
  intro rX rY s
  refine ⟨decodeWord_ofNat_of_two_fields 0xE#4 rfl rfl rfl, exec_convertToAscii_first_ge s,
    exec_convertToAscii_second_ge s, fun x y hx hy => ?_⟩
  refine ⟨exec_convertToAscii_value_gt s hx hy, fun h9 => ?_, fun h9 h15 => ?_⟩
  · rw [exec_convertToAscii_digit s hx hy (by omega), asciiDigit_of_le _ h9]
  · rw [exec_convertToAscii_digit s hx hy h15, asciiDigit_of_gt _ h9]
    rfl

/-! ### DRAW (R134, R136) -/

theorem toCoords_of_toNat_eq {a b : Byte} {px py : Coord} (ha : a.toNat = px) (hb : b.toNat = py) :
    toCoords (a, b) = .ok (px, py) := by
  rw [toCoords_of_lt (ha ▸ px.isLt) (hb ▸ py.isLt)]
  simp [ha, hb]

theorem drawCoords_literal (s : State) (rY rZ : Nibble) :
    drawCoords .literal s rY rZ = .ok (rY.setWidth 8, rZ.setWidth 8) := rfl

theorem drawCoords_register (s : State) {rY rZ : Nibble} {y z : RegIdx} (hy : rY.toNat = y) (hz : rZ.toNat = z) :
    drawCoords .register s rY rZ = .ok (s.reg y, s.reg z) := by
  simp [drawCoords, reg_of_toNat_eq s hy, reg_of_toNat_eq s hz]

theorem drawEvents_of_refresh {p : Params} (h : p.drawEmitsRefresh = true) (px py : Coord) (v : Byte) :
    drawEvents p px py v = [.drawPixel px py v, .refresh] :=
  if_pos h

theorem drawEffects_field_ge (p : Params) (s : State) {rX : Nibble} (rY rZ : Nibble) (hX : 8 ≤ rX.toNat) :
    drawEffects p rX rY rZ s = .error (.registerIndexRange rX) := by
  simp [drawEffects, reg_of_ge s hX]

/-! Past the index checks: `a` and `b` are the coordinates the fields `rY` and `rZ` stand for, in either mode. -/

section DrawEffects

variable {p : Params} {s : State} {rX rY rZ : Nibble} {x : RegIdx} {a b : Byte} (hx : rX.toNat = x)
  (hc : drawCoords p.drawCoordMode s rY rZ = .ok (a, b))
include hx hc

theorem drawEffects_value_gt (hp : p.drawStrictAscii = true) (hv : 127 < (s.reg x).toNat) :
    drawEffects p rX rY rZ s = .error (.drawValueRange (s.reg x)) := by
  have hbad : ¬ (p.drawStrictAscii = false ∨ (s.reg x).toNat ≤ 127) := by simp [hp, hv]
  simp [drawEffects, reg_of_toNat_eq s hx, hc, require_neg _ hbad]

theorem drawEffects_coord_gt (hv : (s.reg x).toNat ≤ 127) (hab : 8 ≤ a.toNat ∨ 8 ≤ b.toNat) :
    drawEffects p rX rY rZ s = .error (.displayRange a b) := by
  simp [drawEffects, reg_of_toNat_eq s hx, hc, require_pos _ (Or.inr hv), toCoords_of_ge hab]

theorem drawEffects_pixel {px py : Coord} (hv : (s.reg x).toNat ≤ 127) (ha : a.toNat = px) (hb : b.toNat = py) :
    drawEffects p rX rY rZ s = .ok { state := s, events := drawEvents p px py (s.reg x) } := by
  simp [drawEffects, reg_of_toNat_eq s hx, hc, require_pos _ (Or.inr hv), toCoords_of_toNat_eq ha hb]

end DrawEffects

theorem exec_draw (rX rY rZ : Nibble) (s : State) :
    exec (.draw rX rY rZ) s = finish s (drawEffects params rX rY rZ s) := rfl

/-- A coordinate field as a byte is the number the field holds. -/
theorem toNat_setWidth_coord (f : Nibble) : (f.setWidth 8).toNat = f.toNat :=
  BitVec.toNat_setWidth_of_le (by decide)

/-- Settles O30: under the default parameters the two fields are the coordinates; then one rule per outcome, in the order
index, value, coordinates, and the two publications of a DRAW that passes. -/
theorem drawEmitsPixelThenRefresh : Obligations.DrawEmitsPixelThenRefresh := by
  intro rX rY rZ s
  have coords : drawCoords params.drawCoordMode s rY rZ = .ok (rY.setWidth 8, rZ.setWidth 8) :=
    drawCoords_literal s rY rZ
  rw [exec_draw]
  refine ⟨?_, fun hX => ?_, fun x hx => ⟨fun hv => ?_, fun hv hyz => ?_, fun px py hv hy hz => ?_⟩⟩
  · exact decodeWord_ofNat_of_toNat_encode rfl ((toNat_packNibbles 0xF#4 rX rY rZ).trans (by simp [Nat.mul_comm]))
  · rw [drawEffects_field_ge params s rY rZ hX, finish_error]
  · rw [drawEffects_value_gt hx coords rfl hv, finish_error]
  · have bad : 8 ≤ (rY.setWidth 8).toNat ∨ 8 ≤ (rZ.setWidth 8).toNat := by
      rw [toNat_setWidth_coord, toNat_setWidth_coord]
      exact hyz
    rw [drawEffects_coord_gt hx coords hv bad, finish_error, BitVec.ofNat_toNat, BitVec.ofNat_toNat]
  · rw [drawEffects_pixel hx coords hv ((toNat_setWidth_coord rY).trans hy) ((toNat_setWidth_coord rZ).trans hz),
      drawEvents_of_refresh rfl]
    simp

/-- Settles O31: the rule of a DRAW that passes, with the coordinates read from the two registers. -/
theorem drawRegisterModeReadsCoordinates : Obligations.DrawRegisterModeReadsCoordinates := by
  intro p rX rY rZ s x y z px py mode refresh hx hy hz hv hpx hpy
  have coords : drawCoords p.drawCoordMode s rY rZ = .ok (s.reg y, s.reg z) := mode ▸ drawCoords_register s hy hz
  rw [drawEffects_pixel hx coords hv hpx hpy, drawEvents_of_refresh refresh]

end Sys2Proof.Machine

namespace Sys2Proof.Machine

/-! PROOFS. The statements about the execution cycle (50_execution_cycle.md): what an instruction tick does in a state
ready to run, at a `pc` out of range, and around a READ_KEYBOARD that waits. The last turns on two facts of a timer tick:
it reads only what `SameTimerInputs` names, and of that writes only `T` and the trace. So the ticks of a wait answer the
same `T` and the same trace before the instruction begins as after. -/

/-! ### One instruction tick (R142 to R148) -/

/-- Settles O6: the tick is taken from the schedule and starts a cycle inside ROM. -/
theorem stepRunsDecodedInstruction : Obligations.StepRunsDecodedInstruction := by
  intro s i rest hs ready next
  rw [step_cons s hs]
  exact instructionTick_of_readyToRun (s := { s with schedule := rest }) ready next

/-- A cycle that starts at a `pc` outside ROM ends in the fault of its fetch, before the advance (R142, R148). -/
theorem instructionTick_of_pc_out {s : State} (starts : s.cycleStarts = true) (hpc : Config.memSize ≤ s.pc.toNat) :
    instructionTick s = .next (takeFatal (.addressOutOfRange s.pc) s) := by
  rw [instructionTick, if_pos starts, cycle, fetch_out s hpc]

/-- Settles O8: `takeFatal` of the state with the tick taken is the whole next state. -/
theorem fetchFaultKeepsPc : Obligations.FetchFaultKeepsPc := by
  intro s rest hs hls hstop hkbd hpc
  rw [step_cons s hs]
  exact instructionTick_of_pc_out (s := { s with schedule := rest }) ((cycleStarts_iff _).2 ⟨hls, hstop, hkbd⟩) hpc

/-! ### Timer ticks (R183, R189) -/

/-- The two states agree on everything a timer tick reads. -/
def SameTimerInputs (s u : State) : Prop :=
  u.ls = s.ls ∧ u.stopReq = s.stopReq ∧ u.t = s.t ∧ u.trace = s.trace ∧ u.extSubs = s.extSubs

/-- A timer tick writes `T` and the trace alone, with values fixed by the parts it reads. -/
theorem timerTick_eq_of_sameTimerInputs {s u : State} (h : SameTimerInputs s u) :
    timerTick u = { u with t := (timerTick s).t, trace := (timerTick s).trace } := by
  obtain ⟨hls, hstop, ht, htrace, hsubs⟩ := h
  have clocks : u.clocksRun = s.clocksRun := by rw [State.clocksRun, hls, hstop, State.clocksRun]
  unfold timerTick
  rw [clocks, ht]
  split
  · rw [publish_timerTick, publish_timerTick, htrace, hsubs]
  · rw [← ht, ← htrace]

theorem sameTimerInputs_after_tick {s u : State} (h : SameTimerInputs s u) :
    SameTimerInputs (timerTick s) { u with t := (timerTick s).t, trace := (timerTick s).trace } := by
  obtain ⟨hls, hstop, -, -, hsubs⟩ := h
  rw [(timerTick_access s).1]
  exact ⟨hls, hstop, rfl, rfl, hsubs⟩

/-- A run through `n` timer ticks: each is one step, and together they write the `T` and the trace that `n` ticks give
any state with the same timer inputs. -/
theorem core_run_timerTicks {s u : State} (n k : Nat) (rest : List Stimulus) (h : SameTimerInputs s u) :
    Sys2Proof.core.run (n + k) { u with schedule := List.replicate n .timerTick ++ rest } =
      Sys2Proof.core.run k
        { u with schedule := rest, t := (timerTick^[n] s).t, trace := (timerTick^[n] s).trace } := by
  induction n generalizing s u with
  | zero =>
    obtain ⟨-, -, ht, htrace, -⟩ := h
    rw [Function.iterate_zero_apply, ← ht, ← htrace, Nat.zero_add]
    rfl
  | succ n ih =>
    have tick : step { u with schedule := List.replicate (n + 1) .timerTick ++ rest } =
        .next { u with
          schedule := List.replicate n .timerTick ++ rest, t := (timerTick s).t, trace := (timerTick s).trace } :=
      congrArg _ (timerTick_eq_of_sameTimerInputs (u := { u with schedule := List.replicate n .timerTick ++ rest }) h)
    rw [Nat.add_right_comm, core_run_of_step (n + k) tick, Function.iterate_succ_apply]
    exact ih (sameTimerInputs_after_tick h)

/-! ### READ_KEYBOARD that waits (R151, R201) -/

section ReadKeyboard

variable {s : State} {rX : Nibble} {x : RegIdx} (hx : rX.toNat = x) (ready : s.readyToRun)
  (next : s.nextInstr (.readKeyboard rX))
include hx ready next

theorem step_readKeyboard (l : List Stimulus) :
    step { s with schedule := .instrTick :: l } =
      .next (readKey x { s with schedule := l, pc := s.pc + 2#16 }) :=
  (stepRunsDecodedInstruction { s with schedule := .instrTick :: l } _ l rfl ready next).trans
    (exec_readKeyboard _ hx)

theorem step_readKeyboard_answered (k : Byte) (rest : List Stimulus) :
    step { s with schedule := .instrTick :: .keyReply k :: rest } =
      .next { s with x := s.x.set x k, pc := s.pc + 2#16, schedule := rest } := by
  rw [step_readKeyboard hx ready next, readKey_answered x rfl]
  rfl

theorem step_readKeyboard_waits {l : List Stimulus} (hl : ∀ k rest, l ≠ .keyReply k :: rest) :
    step { s with schedule := .instrTick :: l } =
      .next { s with pc := s.pc + 2#16, kbdWait := some x, schedule := l } := by
  rw [step_readKeyboard hx ready next, readKey_waits x hl]

end ReadKeyboard

theorem step_keyReply_of_wait {s : State} {d : RegIdx} {k : Byte} {rest : List Stimulus}
    (hs : s.schedule = .keyReply k :: rest) (hw : s.kbdWait = some d) :
    step s = .next { s with x := s.x.set d k, kbdWait := none, schedule := rest } := by
  simp [step_cons s hs, perform, keyReply, hw, State.setReg]

/-- Settles O47: both runs write the destination, advance `pc` and leave nothing waiting, and the ticks between read none
of that. -/
theorem waitedReadEqualsAnsweredRead : Obligations.WaitedReadEqualsAnsweredRead := by
  intro s rX k n rest hX ready next
  have same : SameTimerInputs s s := ⟨rfl, rfl, rfl, rfl, rfl⟩
  have ⟨_, _, idle, _⟩ := ready
  obtain ⟨x, hx⟩ : ∃ x : RegIdx, rX.toNat = x := ⟨⟨rX.toNat, hX⟩, rfl⟩
  let ticked : State := { s with t := (timerTick^[n + 1] s).t, trace := (timerTick^[n + 1] s).trace }
  calc Sys2Proof.core.run (n + 3)
        { s with schedule := .instrTick :: (List.replicate (n + 1) .timerTick ++ .keyReply k :: rest) }
    _ = Sys2Proof.core.run (n + 1 + 1)
        { s with
          pc := s.pc + 2#16, kbdWait := some x,
          schedule := List.replicate (n + 1) .timerTick ++ .keyReply k :: rest } :=
      core_run_of_step (n + 2) (step_readKeyboard_waits hx ready next nofun)
    _ = Sys2Proof.core.run 1
        { ticked with pc := s.pc + 2#16, kbdWait := some x, schedule := .keyReply k :: rest } :=
      core_run_timerTicks (u := { s with pc := s.pc + 2#16, kbdWait := some x }) (n + 1) 1 _ same
    _ = .next { ticked with x := s.x.set x k, pc := s.pc + 2#16, schedule := rest } := by
      rw [core_run_of_step 0 (step_keyReply_of_wait rfl rfl), core_run_zero, ← idle]
    _ = Sys2Proof.core.run 1 { ticked with schedule := .instrTick :: .keyReply k :: rest } :=
      (core_run_of_step 0 (step_readKeyboard_answered (s := ticked) hx ready next k rest)).symm
    _ = Sys2Proof.core.run (n + 2)
        { s with schedule := List.replicate (n + 1) .timerTick ++ .instrTick :: .keyReply k :: rest } :=
      (core_run_timerTicks (n + 1) 1 _ same).symm

end Sys2Proof.Machine

namespace Sys2Proof.Machine

/-! PROOFS. The statements about the event bus (51_event_bus.md): publication and its receivers, the order of delivery,
the subscriber set, and the sink's calls as a mirror of the trace. -/

/-! ### One publication (R165, R168 to R172) -/

/-- The CPU's handler flips `M` on `SwitchMemory` alone (R168). -/
theorem publish_m (e : Event) (s : State) :
    (publish e s).m = if e = .switchMemory then !s.m else s.m := by
  cases e <;> simp

/-- No other event than `TimerSet` writes `T` (R169). -/
theorem publish_t_of_ne {e : Event} (he : ∀ v, e ≠ .timerSet v) (s : State) : (publish e s).t = s.t := by
  cases e with
  | timerSet v => exact absurd rfl (he v)
  | halt | switchMemory | timerTick | drawPixel | refresh => simp

/-- No other event than `Halt` reaches the lifecycle records (R170). -/
theorem sameLifecycle_publish {e : Event} (he : ∀ p, e ≠ .halt p) (s : State) : sameLifecycle s (publish e s) := by
  cases e with
  | halt p => exact absurd rfl (he p)
  | switchMemory | timerSet | timerTick | drawPixel | refresh => simp [sameLifecycle]

/-- Settles O48: the trace, the sink, the registers and the memories by the lemmas over every event, `M`, `T` and the
lifecycle records by the one event whose handler writes them. -/
theorem publicationRunsTheHandlers : Obligations.PublicationRunsTheHandlers := by
  intro e s
  refine ⟨publish_trace e s, publish_m e s, ?_, (publish_t_of_ne · s), ?_, (sameLifecycle_publish · s),
    publish_sinkCalls e s, ?_, ?_⟩
  · rintro v rfl
    simp
  · rintro ⟨p, rfl⟩
    simp [State.clocksRun]
  · intro r
    simp [State.reg]
  · intro a
    simp

/-! ### The order of delivery (R167) -/

theorem lifecycleHandler_cpuHandler (e : Event) (s : State) :
    lifecycleHandler e (cpuHandler e s) = cpuHandler e (lifecycleHandler e s) := by
  cases e <;> rfl

theorem displayHandler_cpuHandler (e : Event) (s : State) :
    displayHandler e (cpuHandler e s) = cpuHandler e (displayHandler e s) := by
  cases e <;> rfl

theorem displayHandler_lifecycleHandler (e : Event) (s : State) :
    displayHandler e (lifecycleHandler e s) = lifecycleHandler e (displayHandler e s) := by
  cases e <;> rfl

/-- Any two receivers commute: the built-in handlers write disjoint parts of the state and read only their own, and an
external receiver writes none (R171). -/
theorem receive_comm (e : Event) (s : State) (r q : Receiver) :
    receive e (receive e s r) q = receive e (receive e s q) r := by
  match r, q with
  | .external _, _ | _, .external _ | .cpu, .cpu | .lifecycle, .lifecycle | .display, .display => rfl
  | .cpu, .lifecycle => exact lifecycleHandler_cpuHandler e s
  | .lifecycle, .cpu => exact (lifecycleHandler_cpuHandler e s).symm
  | .cpu, .display => exact displayHandler_cpuHandler e s
  | .display, .cpu => exact (displayHandler_cpuHandler e s).symm
  | .lifecycle, .display => exact displayHandler_lifecycleHandler e s
  | .display, .lifecycle => exact (displayHandler_lifecycleHandler e s).symm

/-- Settles O49: a fold over a permuted list is the same when the receivers commute. -/
theorem deliveryOrderIsImmaterial : Obligations.DeliveryOrderIsImmaterial :=
  fun e s _ hperm => hperm.foldl_eq' (fun r _ q _ u => receive_comm e u r q) s

/-! ### The subscriber set (R163, R164) -/

/-- In a rising list a member already present is found where it would be inserted (D24). -/
theorem insertSubscriber_of_mem {n : Nat} {l : List Nat} (hl : subscribersRise l) (hn : n ∈ l) :
    insertSubscriber n l = l := by
  induction l with
  | nil => cases hn
  | cons j rest ih =>
    obtain ⟨hj, hrest⟩ := List.pairwise_cons.1 hl
    rcases List.mem_cons.1 hn with rfl | hn
    · simp [insertSubscriber]
    · have lt : j < n := hj n hn
      rw [insertSubscriber, if_neg lt.asymm, if_neg lt.ne', ih hrest hn]

theorem mem_extSubs_unsubscribe (n k : Nat) (s : State) :
    k ∈ (unsubscribe (.external n) s).extSubs ↔ k ≠ n ∧ k ∈ s.extSubs := by
  simp [unsubscribe, and_comm]

theorem subscribe_of_mem {n : Nat} {s : State} (hs : subscribersRise s.extSubs) (hn : n ∈ s.extSubs) :
    subscribe (.external n) s = s := by
  rw [subscribe, insertSubscriber_of_mem hs hn]

theorem unsubscribe_of_not_mem {n : Nat} {s : State} (hn : n ∉ s.extSubs) : unsubscribe (.external n) s = s := by
  have keep : s.extSubs.filter (fun k => k != n) = s.extSubs :=
    List.filter_eq_self.2 fun k hk => bne_iff_ne.2 fun e => hn (e ▸ hk)
  rw [unsubscribe, keep]

theorem subscribersRise_subscribe (r : Receiver) {s : State} (hs : subscribersRise s.extSubs) :
    subscribersRise (subscribe r s).extSubs := by
  cases r with
  | cpu | lifecycle | display => exact hs
  | external n => exact pairwise_insertSubscriber n _ hs

theorem subscribersRise_unsubscribe (r : Receiver) {s : State} (hs : subscribersRise s.extSubs) :
    subscribersRise (unsubscribe r s).extSubs := by
  cases r with
  | cpu | lifecycle | display => exact hs
  | external n => exact List.Pairwise.filter _ hs

/-- The built-in receivers are members in every state, and no request about one changes anything (R164, D20). -/
theorem builtIn_receiver_fixed {b : Receiver} (hb : b = .cpu ∨ b = .lifecycle ∨ b = .display) (s u : State) :
    b ∈ u.subs ∧ subscribe b s = s ∧ unsubscribe b s = s := by
  rcases hb with rfl | rfl | rfl <;> exact ⟨by simp [State.subs], rfl, rfl⟩

/-- Settles O50: what each request does to the rising list, and the frames of the two requests. -/
theorem subscriptionsAreASet : Obligations.SubscriptionsAreASet :=
  fun n k r s hs => ⟨mem_insertSubscriber n k s.extSubs, mem_extSubs_unsubscribe n k s, subscribe_of_mem hs,
    unsubscribe_of_not_mem, subscribersRise_subscribe r hs, subscribersRise_unsubscribe r hs,
    fun _ hb => builtIn_receiver_fixed hb s (unsubscribe r s), subscribe_access r s, unsubscribe_access r s⟩

/-! ### The mirror of the trace (R172, R175) -/

/-- The sink's calls are those of the trace's events, in order. -/
def SinkMirrorsTrace (s : State) : Prop := s.sinkCalls = s.trace.flatMap (fun p => sinkCallsOf p.event)

/-- Publications that mirror themselves on the sink keep the mirror. -/
theorem SinkMirrorsTrace.publishes {s t : State} {ps : List Publication} (hs : SinkMirrorsTrace s)
    (hp : Publishes s t ps) : SinkMirrorsTrace t := by
  obtain ⟨htrace, hsink, -⟩ := hp
  rw [SinkMirrorsTrace, htrace, hsink, hs, List.flatMap_append]

/-- Every step keeps the mirror: only a timer tick and a completed instruction publish, and an accepted `load` starts
trace and calls anew. -/
theorem step_keeps_sinkMirrorsTrace {s t : State} (hs : SinkMirrorsTrace s) (h : step s = .next t) :
    SinkMirrorsTrace t := by
  apply step_elim h SinkMirrorsTrace
  case load => intros; rfl
  case tick =>
    intros
    exact hs.publishes (ps := [⟨.timerTick (s.t - 1#8), s.extSubs⟩])
      ⟨rfl, by simp [sinkCallsOf], by simp [Event.drawsNonAscii]⟩
  case run =>
    intro l i u _ _ _ hC
    obtain ⟨ps, hp, -⟩ := completes_publishes hC
    exact hs.publishes hp
  all_goals intros; exact hs

/-- Settles O59: the mirror alone is kept by every step, without the rest of the invariant. -/
theorem sinkCallsMirrorTheTrace : Obligations.SinkCallsMirrorTheTrace := fun _ _ => step_keeps_sinkMirrorsTrace

end Sys2Proof.Machine

namespace Sys2Proof.Machine

/-! PROOFS. The statements about the clocks and the lifecycle (52_clocks_lifecycle.md): suppressed ticks, the timer's
countdown, the keyboard reply, the host's commands, the legal transitions, and that `T` reaches READ_TIMER only. -/

/-! ### Suppressed ticks (R181) -/

theorem clocksRun_of_not_running {s : State} (h : s.ls ≠ .running) : s.clocksRun = false := by
  simp [State.clocksRun, h]

/-- Settles O9: neither clock runs outside `Running`, so the tick is taken from the inputs and that is all. -/
theorem suppressedTicksDoNothing : Obligations.SuppressedTicksDoNothing := by
  intro s q rest hq hs hls
  have idle : State.clocksRun { s with schedule := rest } = false := clocksRun_of_not_running hls
  rw [step_cons s hs]
  rcases hq with rfl | rfl
  · exact instructionTick_of_not_clocksRun idle
  · exact congrArg _ (timerTick_of_not_clocksRun idle)

/-! ### The timer (R183, R185) -/

theorem timerTick_of_zero {s : State} (h : s.t.toNat = 0) : timerTick s = s := by
  simp [timerTick, h]

/-- One tick that counts: `T` falls by 1 and the event carries its new value (R183). -/
theorem timerTick_of_pos {s : State} (hls : s.ls = .running) (hstop : s.stopReq = false) (hpos : 0 < s.t.toNat) :
    timerTick s = { s with
      t := BitVec.ofNat 8 (s.t.toNat - 1),
      trace := s.trace ++ [⟨.timerTick (BitVec.ofNat 8 (s.t.toNat - 1)), s.extSubs⟩] } := by
  have pred : s.t - 1#8 = BitVec.ofNat 8 (s.t.toNat - 1) := by bv_omega
  simp [timerTick, State.clocksRun, hls, hstop, hpos, pred]

/-- Settles O10: the three rules of a timer tick, on the state with the tick taken. -/
theorem timerTickCountsDown : Obligations.TimerTickCountsDown := by
  intro s rest hs
  rw [step_cons s hs]
  refine ⟨fun hls hstop hpos => ?_, fun hzero => ?_, fun hls => ?_⟩
  · exact congrArg _ (timerTick_of_pos (s := { s with schedule := rest }) hls hstop hpos)
  · exact congrArg _ (timerTick_of_zero (s := { s with schedule := rest }) hzero)
  · exact congrArg _ (timerTick_of_not_clocksRun (s := { s with schedule := rest }) (clocksRun_of_not_running hls))

/-- What `k` timer ticks publish in `Running`: one event for each decrement, with the new values `T - 1`, `T - 2`, … -/
def State.countdown (s : State) (k : Nat) : List Publication :=
  (List.range (min k s.t.toNat)).map fun j => ⟨.timerTick (BitVec.ofNat 8 (s.t.toNat - 1 - j)), s.extSubs⟩

theorem countdown_succ_of_le {s : State} {k : Nat} (h : s.t.toNat ≤ k) : s.countdown (k + 1) = s.countdown k := by
  rw [State.countdown, State.countdown, Nat.min_eq_right h, Nat.min_eq_right (Nat.le_succ_of_le h)]

theorem countdown_succ_of_lt {s : State} {k : Nat} (h : k < s.t.toNat) :
    s.countdown (k + 1) = s.countdown k ++ [⟨.timerTick (BitVec.ofNat 8 (s.t.toNat - 1 - k)), s.extSubs⟩] := by
  rw [State.countdown, State.countdown, Nat.min_eq_left h, Nat.min_eq_left h.le, List.range_succ, List.map_append]
  rfl

/-- The state `k` timer ticks after `s`. -/
def State.ticked (s : State) (k : Nat) : State :=
  { s with t := BitVec.ofNat 8 (s.t.toNat - k), trace := s.trace ++ s.countdown k }

/-- The countdown fits in the register. -/
theorem toNat_ofNat_t_sub (s : State) (k : Nat) : (BitVec.ofNat 8 (s.t.toNat - k)).toNat = s.t.toNat - k := by
  rw [BitVec.toNat_ofNat]
  omega

/-- One more tick counts exactly while `k` is below the first `T`. -/
theorem timerTick_ticked {s : State} (hls : s.ls = .running) (hstop : s.stopReq = false) (k : Nat) :
    timerTick (s.ticked k) = s.ticked (k + 1) := by
  have ht : (s.ticked k).t.toNat = s.t.toNat - k := toNat_ofNat_t_sub s k
  by_cases hk : k < s.t.toNat
  · rw [timerTick_of_pos (s := s.ticked k) hls hstop (by omega), ht, Nat.sub_right_comm]
    simp [State.ticked, countdown_succ_of_lt hk, Nat.sub_right_comm, Nat.sub_sub]
  · have hk : s.t.toNat ≤ k := Nat.not_lt.1 hk
    rw [timerTick_of_zero (by omega), State.ticked, State.ticked, countdown_succ_of_le hk, Nat.sub_eq_zero_of_le hk,
      Nat.sub_eq_zero_of_le (Nat.le_succ_of_le hk)]

theorem iterate_timerTick {s : State} (hls : s.ls = .running) (hstop : s.stopReq = false) (k : Nat) :
    timerTick^[k] s = s.ticked k := by
  induction k with
  | zero => simp [State.ticked, State.countdown]
  | succ k ih => rw [Function.iterate_succ_apply', ih, timerTick_ticked hls hstop]

/-- Settles O11: the run is `k` timer ticks (`core_run_timerTicks`), and these publish the countdown. -/
theorem timerRunReachesZeroAndStays : Obligations.TimerRunReachesZeroAndStays := by
  intro s k rest hs hls hstop
  refine ⟨s.countdown k, ?_, by simp [State.countdown], fun j hj => ?_⟩
  · have run := core_run_timerTicks (u := s) k 0 rest ⟨rfl, rfl, rfl, rfl, rfl⟩
    rw [← hs, iterate_timerTick hls hstop] at run
    exact run
  · have hj : j < min k s.t.toNat := by simpa [State.countdown] using hj
    simp [State.countdown, hj]

/-! ### The keyboard reply (R141, R189, R201) -/

/-- No cycle starts while an instruction waits (R141). -/
theorem instructionTick_of_wait {s : State} {d : RegIdx} (h : s.kbdWait = some d) : instructionTick s = .next s := by
  simp [instructionTick, State.cycleStarts, h]

theorem keyReply_of_no_wait {s : State} (h : s.kbdWait = none) (k : Byte) : keyReply k s = s := by
  simp [keyReply, h]

/-- Settles O26: the wait stops the instruction clock alone, and a reply does what it does in every `LS`. -/
theorem keyReplyCompletesTheWait : Obligations.KeyReplyCompletesTheWait := by
  intro s rest
  refine ⟨fun d hd => ⟨fun hs => ?_, fun k hs => step_keyReply_of_wait hs hd, fun hs hls hstop hpos => ?_⟩,
    fun k hw hs => ?_⟩
  · rw [step_cons s hs]
    exact instructionTick_of_wait (s := { s with schedule := rest }) hd
  · obtain ⟨tick, -⟩ := timerTickCountsDown s rest hs
    exact ⟨_, tick hls hstop hpos, toNat_ofNat_t_sub s 1, hd⟩
  · rw [step_cons s hs]
    exact congrArg _ (keyReply_of_no_wait (s := { s with schedule := rest }) hw k)

/-! ### The host's commands (R192 to R199, R205) -/

theorem hostCommand_of_legal {c : Command} {s : State} (h : c.legalFrom s.ls = true) :
    hostCommand c s = acceptCommand c s :=
  if_pos h

/-- A command that is not legal is answered with a violation and changes nothing else (R199). -/
theorem hostCommand_of_illegal {c : Command} {s : State} (h : ¬ c.legalFrom s.ls = true) :
    hostCommand c s = { s with reply := some (.lifecycleViolation s.ls c) } :=
  if_neg h

theorem acceptCommand_load_fits {bytes : List Byte} (h : bytes.length ≤ 3584) (s : State) :
    acceptCommand (.load bytes) s = { loadImage bytes s with reply := some .ok } :=
  if_pos h

theorem acceptCommand_load_too_long {bytes : List Byte} (h : 3584 < bytes.length) (s : State) :
    acceptCommand (.load bytes) s = { s with reply := some .invalidRom } :=
  if_neg h.not_ge

/-! When each command is legal (R194 to R198). -/

theorem load_legalFrom_iff {bytes : List Byte} {l : Lifecycle} :
    (Command.load bytes).legalFrom l = true ↔ l = .uninitialized ∨ l = .halted := by
  simp [Command.legalFrom]

theorem start_legalFrom_iff {l : Lifecycle} : Command.start.legalFrom l = true ↔ l = .ready := by
  simp [Command.legalFrom]

theorem pause_legalFrom_iff {l : Lifecycle} : Command.pause.legalFrom l = true ↔ l = .running := by
  simp [Command.legalFrom]

theorem resume_legalFrom_iff {l : Lifecycle} : Command.resume.legalFrom l = true ↔ l = .paused := by
  simp [Command.legalFrom]

theorem shutdown_legalFrom_iff {l : Lifecycle} :
    Command.shutdown.legalFrom l = true ↔ l = .ready ∨ l = .running ∨ l = .paused := by
  simp [Command.legalFrom, or_assoc]

/-- Settles O43: two clauses a command, legal and not, and for a legal `load` the two lengths. -/
theorem commandTable : Obligations.CommandTable := by
  intro s bytes
  refine ⟨fun hl => ⟨fun hb => ?_, fun hb => ?_⟩, fun hu hh => ?_, fun hl => ?_, fun hl => ?_, fun hl => ?_,
    fun hl => ?_, fun hl => ?_, fun hl => ?_, fun hl => ?_, fun hl => ?_⟩
  · rw [hostCommand_of_legal (load_legalFrom_iff.2 hl), acceptCommand_load_fits hb]
    exact ⟨rfl, rfl⟩
  · rw [hostCommand_of_legal (load_legalFrom_iff.2 hl), acceptCommand_load_too_long hb]
  · exact hostCommand_of_illegal (mt load_legalFrom_iff.1 (not_or.2 ⟨hu, hh⟩))
  · exact hostCommand_of_legal (start_legalFrom_iff.2 hl)
  · exact hostCommand_of_illegal (mt start_legalFrom_iff.1 hl)
  · exact hostCommand_of_legal (pause_legalFrom_iff.2 hl)
  · exact hostCommand_of_illegal (mt pause_legalFrom_iff.1 hl)
  · exact hostCommand_of_legal (resume_legalFrom_iff.2 hl)
  · exact hostCommand_of_illegal (mt resume_legalFrom_iff.1 hl)
  · exact hostCommand_of_legal (shutdown_legalFrom_iff.2 hl)
  · exact hostCommand_of_illegal (mt shutdown_legalFrom_iff.1 (by rcases hl with hl | hl <;> simp [hl]))

/-! ### The legal transitions (R192) -/

/-- A command that changes `LS` was legal and reached the state it asks for (R192). -/
theorem hostCommand_transition {c : Command} {s : State} (h : (hostCommand c s).ls ≠ s.ls) :
    c.legalFrom s.ls = true ∧ (hostCommand c s).ls = c.target := by
  by_cases hl : c.legalFrom s.ls = true
  · refine ⟨hl, ?_⟩
    rw [hostCommand_of_legal hl] at h ⊢
    cases c with
    | load bytes =>
      rcases Nat.lt_or_ge 3584 bytes.length with hb | hb
      · rw [acceptCommand_load_too_long hb] at h
        exact absurd rfl h
      · rw [acceptCommand_load_fits hb]
        rfl
    | start | pause | resume | shutdown => rfl
  · rw [hostCommand_of_illegal hl] at h
    exact absurd rfl h

/-- An instruction tick that changes `LS` ends the run, by HALT or by a fatal error (R144, R212). -/
theorem instructionTick_transition {s t : State} (h : instructionTick s = .next t) (hne : t.ls ≠ s.ls) :
    s.ls = .running ∧ t.ls = .halted ∧ (t.cause = .cleanHalt ∨ ∃ f, t.cause = .fatal f) := by
  rcases instructionTick_cases s with ⟨-, e⟩ | ⟨hc, -, a, e⟩ | ⟨hc, -, i, -, e⟩ <;> rw [e] at h
  · cases h
    exact absurd rfl hne
  · cases h
    exact ⟨((cycleStarts_iff s).1 hc).1, rfl, .inr ⟨_, rfl⟩⟩
  · have hrun := ((cycleStarts_iff s).1 hc).1
    rcases exec_cases i s.advance with ⟨f, e⟩ | ⟨u, e, hC⟩ <;> rw [e] at h <;> cases h
    · exact ⟨hrun, rfl, .inr ⟨f, rfl⟩⟩
    · obtain ⟨-, hkeep, -, -, -, -, hhalt, -⟩ := completes_frame hC
      have hi : i = .halt := by
        by_contra hi
        exact hne (hkeep hi).1
      obtain ⟨hls, hcause, -⟩ := hhalt hi
      exact ⟨hrun, hls, .inl hcause⟩

/-- The other inputs leave `LS` alone. -/
theorem perform_keeps_ls {q : Stimulus} {s t : State} (hi : q ≠ .instrTick) (hc : ∀ c, q ≠ .command c)
    (h : perform q s = .next t) : t.ls = s.ls := by
  cases q with
  | instrTick => exact absurd rfl hi
  | command c => exact absurd rfl (hc c)
  | timerTick => cases h; rw [(timerTick_access s).1]
  | keyReply k => cases h; rw [keyReply_access]
  | subscribe r => cases h; rw [subscribe_access]
  | unsubscribe r => cases h; rw [unsubscribe_access]

/-- Settles O45: of the six inputs only a command and an instruction tick write `LS`. -/
theorem onlyLegalTransitions : Obligations.OnlyLegalTransitions := by
  intro s t h hne
  rcases hs : s.schedule with _ | ⟨q, rest⟩
  · rw [step_nil s hs] at h
    cases h
    exact absurd rfl hne
  refine ⟨q, rest, rfl, ?_⟩
  rw [step_cons s hs] at h
  cases q with
  | instrTick =>
    obtain ⟨hrun, hhalt, hcause⟩ := instructionTick_transition (s := { s with schedule := rest }) h hne
    exact .inr (.inr (.inr (.inr (.inr (.inl ⟨hrun, hhalt, .inr ⟨rfl, hcause⟩⟩)))))
  | command c =>
    cases h
    obtain ⟨hl, ht⟩ : c.legalFrom s.ls = true ∧ _ = c.target :=
      hostCommand_transition (s := { s with schedule := rest }) hne
    rw [ht]
    cases c with
    | load bytes => rcases load_legalFrom_iff.1 hl with hl | hl <;> simp [hl, Command.target]
    | start => simp [start_legalFrom_iff.1 hl, Command.target]
    | pause => simp [pause_legalFrom_iff.1 hl, Command.target]
    | resume => simp [resume_legalFrom_iff.1 hl, Command.target]
    | shutdown => rcases shutdown_legalFrom_iff.1 hl with hl | hl | hl <;> simp [hl, Command.target]
  | timerTick | keyReply | subscribe | unsubscribe =>
    exact absurd (perform_keeps_ls (by simp) (by simp) h) hne

/-! ### Where the value of `T` goes (R188) -/

/-- An event that leaves `T` alone is published the same whatever `T` is (R169). -/
theorem publish_with_t {e : Event} (he : ∀ tt, e ≠ .timerSet tt) (s : State) (v : Byte) :
    publish e { s with t := v } = { publish e s with t := v } := by
  cases e with
  | timerSet tt => exact absurd rfl (he tt)
  | halt | switchMemory | timerTick | drawPixel | refresh => simp

theorem publishAll_with_t {es : List Event} (hes : ∀ tt, .timerSet tt ∉ es) (s : State) (v : Byte) :
    publishAll es { s with t := v } = { publishAll es s with t := v } := by
  induction es generalizing s with
  | nil => rfl
  | cons e es ih =>
    rw [publishAll_cons, publishAll_cons, publish_with_t fun tt he => hes tt (he ▸ List.mem_cons_self)]
    exact ih (fun tt hmem => hes tt (List.mem_cons_of_mem _ hmem)) _

theorem applyAction_with_t (p : PcAction) (s : State) (v : Byte) :
    applyAction p { s with t := v } = (applyAction p s).map fun u => { u with t := v } := by
  cases p with
  | noChange | increment n => rfl
  | setPc aaa =>
    rcases Nat.mod_two_eq_zero_or_one aaa.toNat with h | h
    · rw [applyAction_setPc_even _ h, applyAction_setPc_even _ h]
      rfl
    · rw [applyAction_setPc_odd _ h, applyAction_setPc_odd _ h]
      rfl

/-- The effects `r` on `s`, and `r'` on `s` with another `T`, end in states that differ in `T` alone. -/
def EndsAlike (v : Byte) (s : State) (r r' : Except FatalError Effects) : Prop :=
  ∀ t, finish s r = .next t → finish { s with t := v } r' = .next { t with t := v }

section EndsAlike

variable {v : Byte} {s : State}

theorem endsAlike_error (f : FatalError) : EndsAlike v s (.error f) (.error f) := by
  rintro t ⟨⟩
  rfl

/-- A check, or a value read from a part of the state other than `T`, then what follows it. -/
theorem endsAlike_bind {α : Type} (x : Except FatalError α) {g g' : α → Except FatalError Effects}
    (h : ∀ a, EndsAlike v s (g a) (g' a)) : EndsAlike v s (x >>= g) (x >>= g') := by
  cases x with
  | error f => exact endsAlike_error f
  | ok a => exact h a

/-- Effects with no `TimerSet` event, committed over another `T`. -/
theorem endsAlike_ok {u : State} (p : PcAction) {es : List Event} (hes : ∀ tt, .timerSet tt ∉ es) :
    EndsAlike v s (.ok { state := u, action := p, events := es })
      (.ok { state := { u with t := v }, action := p, events := es }) := by
  intro t h
  simp only [finish, applyAction_with_t] at h ⊢
  cases hp : applyAction p u with
  | error f =>
    rw [hp] at h
    cases h
    rfl
  | ok u' =>
    rw [hp] at h
    cases h
    exact congrArg _ (publishAll_with_t hes u' v)

/-- Effects that publish nothing. -/
theorem endsAlike_quiet {u : State} (p : PcAction) :
    EndsAlike v s (.ok { state := u, action := p }) (.ok { state := { u with t := v }, action := p }) :=
  endsAlike_ok p (by simp)

end EndsAlike

theorem readKey_with_t (d : RegIdx) (s : State) (v : Byte) :
    readKey d { s with t := v } = { readKey d s with t := v } := by
  by_cases h : ∃ k rest, s.schedule = .keyReply k :: rest
  · obtain ⟨k, rest, h⟩ := h
    rw [readKey_answered d h, readKey_answered (s := { s with t := v }) d h]
    rfl
  · have h : ∀ k rest, s.schedule ≠ .keyReply k :: rest := fun k rest e => h ⟨k, rest, e⟩
    rw [readKey_waits d h, readKey_waits (s := { s with t := v }) d h]

/-- WRITE as one chain of checks before its effect (R57, R111). -/
theorem exec_write (rX : Nibble) (s : State) :
    exec (.write rX) s = finish s do
      let b ← reg s rX
      checkWrite s (dataAddr s 0#16)
      return { state := s.setRam (dataAddr s 0#16) b } := by
  simp [exec, execWrite, memWrite, bind_assoc]

/-- An instruction other than READ_TIMER and SET_TIMER, run with another `T`: its checks and the values it computes read
the other parts of the state, and it publishes no `TimerSet` event. -/
theorem exec_with_t {i : Instr} {s t : State} (v : Byte) (hread : ∀ rX, i ≠ .readTimer rX)
    (hset : ∀ tt, i ≠ .setTimer tt) (h : exec i s = .next t) :
    exec i { s with t := v } = .next { t with t := v } := by
  have key : ∀ f : State → Except FatalError Effects, (∀ u, exec i u = finish u (f u)) →
      EndsAlike v s (f s) (f { s with t := v }) → exec i { s with t := v } = .next { t with t := v } := by
    intro f hx alike
    rw [hx] at h ⊢
    exact alike t h
  cases i with
  | readTimer rX => exact absurd rfl (hread rX)
  | setTimer tt => exact absurd rfl (hset tt)
  | halt =>
    exact key (fun u => .ok { state := { u with haltPc := u.pc0 }, events := [.halt u.pc0] }) (fun _ => rfl)
      (endsAlike_ok _ (by simp))
  | switchMemory =>
    exact key (fun u => .ok { state := u, events := [.switchMemory] }) (fun _ => rfl) (endsAlike_ok _ (by simp))
  | setAddress aaa =>
    exact key (fun u => .ok { state := { u with a := zextAddr aaa } }) (fun _ => rfl) (endsAlike_quiet _)
  | jump aaa => exact key (fun u => .ok { state := u, action := .setPc aaa }) (fun _ => rfl) (endsAlike_quiet _)
  | store =>
    refine key _ (fun _ => rfl) ?_
    exact endsAlike_bind _ fun d => endsAlike_quiet _
  | add | sub =>
    refine key _ (fun _ => rfl) ?_
    exact endsAlike_bind (reg s _) fun a => endsAlike_bind (reg s _) fun b => endsAlike_bind _ fun d =>
      endsAlike_quiet _
  | skipIfEqual | skipIfNotEqual =>
    refine key _ (fun _ => rfl) ?_
    exact endsAlike_bind (reg s _) fun a => endsAlike_bind (reg s _) fun b => endsAlike_quiet _
  | read =>
    refine key _ (fun _ => rfl) ?_
    exact endsAlike_bind _ fun d => endsAlike_bind (memRead s _) fun b => endsAlike_quiet _
  | write rX =>
    refine key _ (exec_write rX) ?_
    exact endsAlike_bind (reg s _) fun b => endsAlike_bind (checkWrite s _) fun _ => endsAlike_quiet _
  | readKeyboard =>
    refine key _ (fun _ => rfl) (endsAlike_bind _ fun d => ?_)
    rw [readKey_with_t d s v]
    exact endsAlike_quiet _
  | convertToBase10 =>
    refine key _ (fun _ => rfl) ?_
    exact endsAlike_bind (reg s _) fun b => endsAlike_bind (checkWrite s _) fun _ =>
      endsAlike_bind (checkWrite s _) fun _ => endsAlike_bind (checkWrite s _) fun _ => endsAlike_quiet _
  | convertToAscii =>
    refine key _ (fun _ => rfl) ?_
    exact endsAlike_bind (reg s _) fun b => endsAlike_bind _ fun d => endsAlike_bind _ fun _ => endsAlike_quiet _
  | draw =>
    refine key _ (fun _ => rfl) ?_
    exact endsAlike_bind (reg s _) fun b => endsAlike_bind _ fun xy => endsAlike_bind _ fun _ =>
      endsAlike_bind _ fun c => endsAlike_ok _ (by simp [drawEvents, params])

/-- Settles O52: SET_TIMER overwrites the `T` it started with, and no other instruction but READ_TIMER reads it. -/
theorem timerValueReachesOnlyReadTimer : Obligations.TimerValueReachesOnlyReadTimer := by
  intro i s t v hread h
  refine ⟨fun hset => exec_with_t v hread hset h, ?_⟩
  rintro tt rfl
  rw [exec_setTimer] at h ⊢
  exact h

end Sys2Proof.Machine

namespace Sys2Proof.Machine

/-! PROOFS. The statements about exceptions (60_exceptions.md): the whole next state of an instruction tick that raises
a fatal error, what `Halted` keeps until a `load`, and that `ready-for-load` tells whether a `load` is accepted. -/

/-! ### Raising a fatal error (R212) -/

/-- An instruction that raised nothing records no fatal error: `cause` is written by HALT alone (R43). -/
theorem completes_cause_ne_fatal {i : Instr} {s t : State} (hC : Completes i s t) (hs : s.cause = .none)
    (f : FatalError) : t.cause ≠ .fatal f := by
  obtain ⟨-, hkeep, -, -, -, -, hhalt, -⟩ := completes_frame hC
  by_cases hi : i = .halt
  · obtain ⟨-, hcause, -⟩ := hhalt hi
    simp [hcause]
  · obtain ⟨-, hcause, -⟩ := hkeep hi
    simp [hcause, hs]

/-- A tick that raises a fatal error takes it after the advance, or before it when the fetch raised it (R148, R212). -/
theorem instructionTick_fatal {s t : State} {f : FatalError} (hs : s.cause = .none) (h : instructionTick s = .next t)
    (hf : t.cause = .fatal f) : t = takeFatal f (if s.pc.toNat + 1 < 4096 then s.advance else s) := by
  rcases instructionTick_cases s with ⟨-, e⟩ | ⟨-, hpc, a, e⟩ | ⟨-, hpc, i, -, e⟩ <;> rw [e] at h
  · cases h
    simp [hs] at hf
  · cases h
    cases hf
    rw [if_neg (c := s.pc.toNat + 1 < 4096) (Nat.not_lt.2 hpc)]
  · rw [if_pos (c := s.pc.toNat + 1 < 4096) hpc]
    rcases exec_cases i s.advance with ⟨g, e⟩ | ⟨u, e, hC⟩ <;> rw [e] at h <;> cases h
    · cases hf
      rfl
    · exact absurd hf (completes_cause_ne_fatal hC hs f)

/-- Settles O40: `instructionTick_fatal` is the whole next state, and in `Halted` neither clock runs. -/
theorem fatalErrorHasNoOtherEffect : Obligations.FatalErrorHasNoOtherEffect := by
  intro s t rest f hs hcause h hf
  rw [step_cons s hs] at h
  have ht := instructionTick_fatal (s := { s with schedule := rest }) hcause h hf
  have idle : t.clocksRun = false := clocksRun_of_not_running (by simp [ht])
  refine ⟨?_, instructionTick_of_not_clocksRun idle, timerTick_of_not_clocksRun idle⟩
  rw [ht]
  split <;> rfl

/-! ### The record of a finished run (R213, R222) -/

/-- `LS` and the three parts of the state that tell how the run ended are the same in `t` as in `s`. -/
def KeepsEndRecord (s t : State) : Prop :=
  t.ls = s.ls ∧ t.cause = s.cause ∧ t.haltPc = s.haltPc ∧ t.trace = s.trace

/-- In `Halted` the only command that does more than reply is a `load` of legal length (R194, R205). -/
theorem hostCommand_of_halted (c : Command) {s : State} (hls : s.ls = .halted) :
    (∃ r, hostCommand c s = { s with reply := r }) ∨
    (∃ bytes, c = .load bytes ∧ hostCommand c s = { loadImage bytes s with reply := some .ok }) := by
  by_cases hl : c.legalFrom s.ls = true
  · rw [hostCommand_of_legal hl]
    cases c with
    | load bytes =>
      rcases Nat.lt_or_ge 3584 bytes.length with hb | hb
      · exact .inl ⟨_, acceptCommand_load_too_long hb s⟩
      · exact .inr ⟨bytes, rfl, acceptCommand_load_fits hb s⟩
    | start | pause | resume | shutdown => simp [Command.legalFrom, hls] at hl
  · exact .inl ⟨_, hostCommand_of_illegal hl⟩

/-- In `Halted` every input keeps the record of the run, or is a `load` that is accepted. -/
theorem perform_of_halted {q : Stimulus} {s t : State} (hls : s.ls = .halted) (h : perform q s = .next t) :
    KeepsEndRecord s t ∨ (t.ls = .ready ∧ t.cause = .none ∧ ∃ bytes, q = .command (.load bytes)) := by
  have idle : s.clocksRun = false := clocksRun_of_not_running (by simp [hls])
  cases q with
  | instrTick =>
    rw [perform, instructionTick_of_not_clocksRun idle] at h
    cases h
    exact .inl ⟨rfl, rfl, rfl, rfl⟩
  | timerTick =>
    rw [perform, timerTick_of_not_clocksRun idle] at h
    cases h
    exact .inl ⟨rfl, rfl, rfl, rfl⟩
  | command c =>
    cases h
    rcases hostCommand_of_halted c hls with ⟨r, e⟩ | ⟨bytes, rfl, e⟩ <;> rw [e]
    · exact .inl ⟨rfl, rfl, rfl, rfl⟩
    · exact .inr ⟨rfl, rfl, bytes, rfl⟩
  | keyReply k => cases h; rw [keyReply_access]; exact .inl ⟨rfl, rfl, rfl, rfl⟩
  | subscribe r => cases h; rw [subscribe_access]; exact .inl ⟨rfl, rfl, rfl, rfl⟩
  | unsubscribe r => cases h; rw [unsubscribe_access]; exact .inl ⟨rfl, rfl, rfl, rfl⟩

/-- Settles O41: `perform_of_halted` for the input taken; with no input left nothing happens. -/
theorem causeIsKeptUntilLoad : Obligations.CauseIsKeptUntilLoad := by
  intro s t hls h
  rcases hs : s.schedule with _ | ⟨q, rest⟩
  · rw [step_nil s hs] at h
    cases h
    exact .inl ⟨hls, rfl, rfl, rfl⟩
  · rw [step_cons s hs] at h
    rcases perform_of_halted (s := { s with schedule := rest }) hls h with
      ⟨hkeep, record⟩ | ⟨hready, hnone, bytes, rfl⟩
    · exact .inl ⟨hkeep.trans hls, record⟩
    · exact .inr ⟨hready, hnone, bytes, rest, rfl⟩

/-! ### The status output `ready-for-load` (R233) -/

/-- `ready-for-load` is true in the states a `load` is legal in (R194, R233). -/
theorem readyForLoad_iff_legalFrom (s : State) (bytes : List Byte) :
    s.readyForLoad = true ↔ (Command.load bytes).legalFrom s.ls = true :=
  Iff.rfl

/-- Settles O46: a legal `load` of legal length replies ok, an illegal one replies with a violation. -/
theorem readyForLoadMeansLoadIsAccepted : Obligations.ReadyForLoadMeansLoadIsAccepted := by
  intro s bytes hb
  rw [readyForLoad_iff_legalFrom s bytes]
  by_cases hl : (Command.load bytes).legalFrom s.ls = true
  · simp [hl, hostCommand_of_legal hl, acceptCommand_load_fits hb]
  · simp [hl, hostCommand_of_illegal hl]

end Sys2Proof.Machine

namespace Sys2Proof.Machine

/-! PROOFS. The statements about reset (70_reset_and_hazards.md): the state after power-on, and the state an accepted
`load` leaves. -/

/-! ### Power-on reset (R250) -/

@[simp] theorem State.reg_reset (i : RegIdx) : State.reset.reg i = 0#8 := by
  simp [State.reg, State.reset]

/-- Settles O53: `reg_reset` for the registers, no byte of RAM listed, and every other part as `reset` writes it. -/
theorem powerOnState : Obligations.PowerOnState :=
  ⟨rfl, Memory.read_nil, State.reg_reset, rfl, rfl, rfl, rfl, rfl, rfl, rfl, rfl, rfl⟩

/-! ### An accepted `load` (R194, R252) -/

theorem Memory.read_ofBytes_lt {bytes : List Byte} {j : Nat} (h : j < bytes.length) :
    (Memory.ofBytes 0 bytes).read j = bytes[j] := by
  rw [Memory.read_ofBytes, List.getD_eq_getElem _ _ h]

theorem Memory.read_ofBytes_ge {bytes : List Byte} {j : Nat} (h : bytes.length ≤ j) :
    (Memory.ofBytes 0 bytes).read j = 0#8 := by
  rw [Memory.read_ofBytes, List.getD_eq_default _ _ h]

/-- A legal `load` of legal length installs the image and replies ok. -/
theorem hostCommand_load_fits {s : State} {bytes : List Byte} (hls : s.ls = .uninitialized ∨ s.ls = .halted)
    (hb : bytes.length ≤ 3584) : hostCommand (.load bytes) s = { loadImage bytes s with reply := some .ok } := by
  rw [hostCommand_of_legal (load_legalFrom_iff.2 hls), acceptCommand_load_fits hb]

theorem step_load_fits {s : State} {bytes : List Byte} {rest : List Stimulus}
    (hs : s.schedule = .command (.load bytes) :: rest) (hls : s.ls = .uninitialized ∨ s.ls = .halted)
    (hb : bytes.length ≤ 3584) :
    step s = .next { loadImage bytes { s with schedule := rest } with reply := some .ok } :=
  (step_cons s hs).trans (congrArg _ (hostCommand_load_fits (s := { s with schedule := rest }) hls hb))

/-- Settles O44: ROM by the two laws of an image, every register by `reg_loadImage`, and the rest as `loadImage` writes
it. -/
theorem loadInstallsImageAndResets : Obligations.LoadInstallsImageAndResets := by
  intro s bytes rest hs hls hb
  exact ⟨_, step_load_fits hs hls hb, fun _ => Memory.read_ofBytes_lt, fun _ => Memory.read_ofBytes_ge, Memory.read_nil,
    State.reg_loadImage bytes s, rfl, rfl, rfl, rfl, rfl, rfl, rfl, rfl, rfl, rfl⟩

end Sys2Proof.Machine
